-- ==== Sys2Proof/Word.lean ====
section
/-! DEFINITION. The two widths of the core (spec 00_scope.md rule R8): the byte of the code buffer and of an
index operand, and the 32-bit word of a stack entry, a memory-bank word, the program counter and a return address.
Their signed view is `BitVec.toInt` (R11 `signed32`), their unsigned view `BitVec.toNat` (R11 `unsigned32`). -/

namespace Sys2Proof

/-- One byte (R10: 8 bits, numbered from 0 at the least significant). -/
abbrev Byte := BitVec 8

/-- One 32-bit word (R8, R25, R34). -/
abbrev Word := BitVec 32

end Sys2Proof
end

