-- ==== Sys2Proof/Config.lean ====
section
/-! DEFINITION. What an implementation of the core fixes (spec 00_scope.md rule R7): the four capacities and the
opcode map. The spec leaves no value of an executed instruction open, so no free value stands here. -/

namespace Sys2Proof

/-- The sixteen members of the closed opcode enumeration (R2), in the order of R74. -/
inductive Op where
  | push | pop | dup | add | sub | mul | div | cmp
  | jmp | jz | jnz | store | load | call | ret | halt
  deriving DecidableEq, Repr

/-- Every member of the enumeration, in the order of R74. -/
def Op.all : List Op :=
  [.push, .pop, .dup, .add, .sub, .mul, .div, .cmp, .jmp, .jz, .jnz, .store, .load, .call, .ret, .halt]

/-- The three instruction formats (R71, R72): no operand, a 1-byte index, a 4-byte value. -/
inductive Format where
  | n | i8 | i32
  deriving DecidableEq, Repr

/-- The parameter `OPCODE_MAP` of R7: the byte value of each opcode. -/
structure OpcodeMap where
  push  : Byte
  pop   : Byte
  dup   : Byte
  add   : Byte
  sub   : Byte
  mul   : Byte
  div   : Byte
  cmp   : Byte
  jmp   : Byte
  jz    : Byte
  jnz   : Byte
  store : Byte
  load  : Byte
  call  : Byte
  ret   : Byte
  halt  : Byte
  deriving DecidableEq, Repr

/-- The byte the map gives to an opcode. -/
def OpcodeMap.byteOf (m : OpcodeMap) : Op → Byte
  | .push => m.push
  | .pop => m.pop
  | .dup => m.dup
  | .add => m.add
  | .sub => m.sub
  | .mul => m.mul
  | .div => m.div
  | .cmp => m.cmp
  | .jmp => m.jmp
  | .jz => m.jz
  | .jnz => m.jnz
  | .store => m.store
  | .load => m.load
  | .call => m.call
  | .ret => m.ret
  | .halt => m.halt

/-- The implementation parameters of R7. `Config.wf` (WellFormed.lean) is the table's column of constraints. -/
structure Config where
  stackCap : Nat        -- `STACK_CAP`
  callCap  : Nat        -- `CALL_CAP`
  memSize  : Nat        -- `MEM_SIZE`
  codeCap  : Nat        -- `CODE_CAP`
  opcodes  : OpcodeMap  -- `OPCODE_MAP`
  deriving DecidableEq, Repr

end Sys2Proof
end

