-- ==== Sys2Proof/Syntax.lean ====
section
/-! DEFINITION. The instruction set (spec 00_scope.md rule R2; the rows of spec/opcode_table.json): one constructor
per row, its operand in the width that R72 gives its format, so that every term is an instruction of the machine
(R76: every value of `idx8` and `imm32` is legal at decode). -/

namespace Sys2Proof

/-- The sixteen instructions, in the order of R74. -/
inductive Instr where
  | push (imm : Word)      -- R100
  | pop                    -- R101
  | dup                    -- R102
  | add                    -- R110
  | sub                    -- R111
  | mul                    -- R112
  | div                    -- R113
  | cmp                    -- R114
  | jmp (target : Word)    -- R130
  | jz (target : Word)     -- R131
  | jnz (target : Word)    -- R132
  | store (idx : Byte)     -- R140
  | load (idx : Byte)      -- R141
  | call (target : Word)   -- R150
  | ret                    -- R151
  | halt                   -- R160
  deriving DecidableEq, Repr

/-- The opcode of an instruction. -/
def Instr.op : Instr → Op
  | .push _ => .push
  | .pop => .pop
  | .dup => .dup
  | .add => .add
  | .sub => .sub
  | .mul => .mul
  | .div => .div
  | .cmp => .cmp
  | .jmp _ => .jmp
  | .jz _ => .jz
  | .jnz _ => .jnz
  | .store _ => .store
  | .load _ => .load
  | .call _ => .call
  | .ret => .ret
  | .halt => .halt

end Sys2Proof
end

