-- ==== Sys2Proof/WellFormed.lean ====
section
/-! DEFINITION. The static checks of the spec: the constraints on the implementation parameters (00_scope.md rule R7)
and the length of a program (70_reset_and_hazards.md rules R200 and R202). An instruction has no check of its own:
its operand types are the fields of R72, and R76 makes every value of a field legal. -/

namespace Sys2Proof

/-- R7, `OPCODE_MAP`: injective, and no opcode is 0x00. -/
def OpcodeMap.wf (m : OpcodeMap) : Bool :=
  decide ((Op.all.map m.byteOf).Nodup) && Op.all.all (fun o => m.byteOf o != 0x00#8)

/-- R7, the constraint column: each capacity at least 1, `MEM_SIZE` at most 256, `CODE_CAP` at most 2^31 − 1,
and the opcode map well formed. -/
def Config.wf (c : Config) : Bool :=
  decide (1 ≤ c.stackCap) && decide (1 ≤ c.callCap) &&
  decide (1 ≤ c.memSize) && decide (c.memSize ≤ 256) &&
  decide (1 ≤ c.codeCap) && decide (c.codeCap ≤ 2 ^ 31 - 1) &&
  c.opcodes.wf

/-- R200, R202: a program fits the code buffer. -/
def Config.accepts (c : Config) (program : List Byte) : Bool :=
  decide (program.length ≤ c.codeCap)

end Sys2Proof
end

