-- ==== Sys2Proof/Decode.lean ====
section
/-! DEFINITION. Encoding and decoding (spec 30_encoding.md): the opcode map of R74, the operand widths of R75, the
operand assembly of R73, a decoder that is total on any bytes and rejects by name, and the encoder written from the
same tables. -/

namespace Sys2Proof

/-- R74, the opcode map of this hardware (decision D1). -/
def OpcodeMap.hardware : OpcodeMap where
  push := 0x01
  pop := 0x02
  dup := 0x03
  add := 0x04
  sub := 0x05
  mul := 0x06
  div := 0x07
  cmp := 0x08
  jmp := 0x09
  jz := 0x0A
  jnz := 0x0B
  store := 0x0C
  load := 0x0D
  call := 0x0E
  ret := 0x0F
  halt := 0x10

/-- The format column of R74; with `Format.width` it is the table of R75. -/
def Op.format : Op → Format
  | .push | .jmp | .jz | .jnz | .call => .i32
  | .store | .load => .i8
  | .pop | .dup | .add | .sub | .mul | .div | .cmp | .ret | .halt => .n

/-- R71, R72: the operand width of a format, in bytes. -/
def Format.width : Format → Nat
  | .n => 0
  | .i8 => 1
  | .i32 => 4

/-- R71: the length of an instruction, one opcode byte and the operand: 1, 2 or 5 bytes. -/
def Op.length (o : Op) : Nat := 1 + o.format.width

/-- The length of an instruction is that of its opcode (R83). -/
def Instr.length (i : Instr) : Nat := i.op.length

/-- The longest instruction, in bytes (R71). -/
def maxLength : Nat := 5

/-- R74: the opcode whose byte this is, all 8 bits compared; `none` for an invalid byte (R76). -/
def OpcodeMap.opcodeOf (m : OpcodeMap) (b : Byte) : Option Op :=
  Op.all.find? (fun o => m.byteOf o == b)

/-- R51, R73: four operand bytes as one word, the byte at the lowest address least significant. -/
def wordOfBytes (b0 b1 b2 b3 : Byte) : Word := b3 ++ b2 ++ b1 ++ b0

/-- R72, format I32: the four operand bytes of a word, lowest address first. -/
def bytesOfWord (w : Word) : List Byte :=
  [w.extractLsb' 0 8, w.extractLsb' 8 8, w.extractLsb' 16 8, w.extractLsb' 24 8]

/-- Why bytes are no instruction. -/
inductive DecodeError where
  | noOpcode                        -- no byte to decode
  | invalidOpcode (opcode : Byte)   -- R76: the byte is no opcode
  | truncatedOperand (op : Op)      -- R79: fewer operand bytes than the opcode's width
  deriving DecidableEq, Repr

/-- What decoding answers: an instruction and the bytes after it, or a named error. -/
abbrev Decoded := Except DecodeError (Instr × List Byte)

/-- R73, format I8. -/
def takeIndex (o : Op) (make : Byte → Instr) : List Byte → Decoded
  | b :: rest => .ok (make b, rest)
  | [] => .error (.truncatedOperand o)

/-- R73, format I32. -/
def takeWord (o : Op) (make : Word → Instr) : List Byte → Decoded
  | b0 :: b1 :: b2 :: b3 :: rest => .ok (make (wordOfBytes b0 b1 b2 b3), rest)
  | _ => .error (.truncatedOperand o)

/-- The operand of an opcode (R73), read from the bytes after the opcode byte. -/
def decodeOperand : Op → List Byte → Decoded
  | .push, bs => takeWord .push .push bs
  | .pop, bs => .ok (.pop, bs)
  | .dup, bs => .ok (.dup, bs)
  | .add, bs => .ok (.add, bs)
  | .sub, bs => .ok (.sub, bs)
  | .mul, bs => .ok (.mul, bs)
  | .div, bs => .ok (.div, bs)
  | .cmp, bs => .ok (.cmp, bs)
  | .jmp, bs => takeWord .jmp .jmp bs
  | .jz, bs => takeWord .jz .jz bs
  | .jnz, bs => takeWord .jnz .jnz bs
  | .store, bs => takeIndex .store .store bs
  | .load, bs => takeIndex .load .load bs
  | .call, bs => takeWord .call .call bs
  | .ret, bs => .ok (.ret, bs)
  | .halt, bs => .ok (.halt, bs)

/-- R83: read the opcode byte, look up its opcode, read that many operand bytes. -/
def decode (m : OpcodeMap) : List Byte → Decoded
  | [] => .error .noOpcode
  | b :: rest =>
    match m.opcodeOf b with
    | none => .error (.invalidOpcode b)
    | some o => decodeOperand o rest

/-- The operand bytes of an instruction (R72). -/
def operandBytes : Instr → List Byte
  | .push imm => bytesOfWord imm
  | .jmp t => bytesOfWord t
  | .jz t => bytesOfWord t
  | .jnz t => bytesOfWord t
  | .call t => bytesOfWord t
  | .store idx => [idx]
  | .load idx => [idx]
  | .pop | .dup | .add | .sub | .mul | .div | .cmp | .ret | .halt => []

/-- R72: the opcode byte, then the operand bytes. -/
def encode (m : OpcodeMap) (i : Instr) : List Byte := m.byteOf i.op :: operandBytes i

/-- R70: the binary artifact of a sequence of instructions, with no header and nothing between them. -/
def encodeProgram (m : OpcodeMap) : List Instr → List Byte
  | [] => []
  | i :: rest => encode m i ++ encodeProgram m rest

/-- Decoding from address 0 by fall-through, at most `fuel` instructions (R83). -/
def decodeUpTo (m : OpcodeMap) : Nat → List Byte → Except DecodeError (List Instr)
  | _, [] => .ok []
  | 0, _ :: _ => .ok []
  | fuel + 1, b :: bs =>
    match decode m (b :: bs) with
    | .error e => .error e
    | .ok (i, rest) =>
      match decodeUpTo m fuel rest with
      | .error e => .error e
      | .ok is => .ok (i :: is)

/-- R70: a byte stream as a sequence of instructions "repeated until end of stream". -/
def decodeProgram (m : OpcodeMap) (bs : List Byte) : Except DecodeError (List Instr) :=
  decodeUpTo m bs.length bs

/-- The bytes of a table word, lowest address first: bit 0 of `w` is the least significant bit of the first byte,
and every bit at or above `nbits` is 0. -/
def tableBytes (nbits w : Nat) : List Byte :=
  (List.range maxLength).map fun k => BitVec.ofNat 8 ((w % 2 ^ nbits) / 2 ^ (8 * k))

/-- The instruction the decoder reads from a word numbered as spec/opcode_table.json numbers it. -/
def decodeTableWord (nbits w : Nat) : Option Instr :=
  match decode OpcodeMap.hardware (tableBytes nbits w) with
  | .ok (i, _) => some i
  | .error _ => none

end Sys2Proof
end

