-- ==== Sys2Proof/Machine/Hardware.lean ====
section
/-! DEFINITION. The parameter values of this hardware (spec 00_scope.md rule R7, the last column; decision D3). -/

namespace Sys2Proof

/-- R7: 256 operand-stack entries, 256 return addresses, 256 memory words, 4096 code bytes, the opcode map of R74. -/
def Config.hardware : Config where
  stackCap := 256
  callCap := 256
  memSize := 256
  codeCap := 4096
  opcodes := OpcodeMap.hardware

end Sys2Proof
end

