-- ==== Sys2Proof/Machine/State.lean ====
section
/-! DEFINITION. The architectural state of the core (spec 10_state.md rule R20), the reasons it can stop, and its
state after reset (R38). -/

namespace Sys2Proof.Machine

/-- An array of `w`-bit cells: the cells that do not hold 0, by rising address (R38: every array of the core is zero
at reset). `Memory.wf` (Ops.lean) is the canonical form. At width 8 it is a list of `Host.Cell`. -/
abbrev Memory (w : Nat) := List (Nat × BitVec w)

/-- The fault causes of R170, less NONE; `Cause.code` (Flags.lean) gives their numbers. -/
inductive Cause where
  | stackOverflow | stackUnderflow | callStackOverflow | callStackUnderflow
  | memOutOfBounds | divByZero | invalidOpcode | pcOutOfBounds
  deriving DecidableEq, Repr

/-- The state of R20, field by field, and the parameters of R7 that the machine was built with. -/
structure State where
  config  : Config      -- R7: the implementation parameters; no step writes them
  code    : Memory 8    -- `CODE`, the code buffer (R36)
  pc      : Word        -- `PC` (R25)
  stk     : Memory 32   -- `STK`, the operand-stack storage (R23)
  sp      : Nat         -- `SP`, its depth (R23)
  cstk    : Memory 32   -- `CSTK`, the call-stack storage (R34)
  csp     : Nat         -- `CSP`, its depth (R34)
  mem     : Memory 32   -- `MEM`, the memory bank (R37)
  run     : Bool        -- `RUN` (R30)
  err     : Bool        -- `ERR` (R30)
  cause   : BitVec 4    -- `CAUSE` (R31)
  faultPc : Word        -- `FAULT_PC` (R32)
  deriving DecidableEq, Repr

/-- Why `step` answers no next state. A fault of R170 is none of these: it is taken, and its entry (R176) is a next
state. -/
inductive Fault where
  /-- Raised by `step` when `RUN` = 0 and `ERR` = 0: the run has ended by HALT and no step is enabled (R77).
  Safe: the hardware has no step there. -/
  | halted
  /-- Raised by `step` when `RUN` = 0 and `ERR` = 1: the run has ended by a fault and no step is enabled (R77).
  Safe: the hardware has no step there. -/
  | haltedOnError
  deriving DecidableEq, Repr

/-- What the model gives no meaning to. -/
inductive Refusal where
  /-- Raised by an arm of `exec` whose instruction has no meaning yet (none has this now). Safe. -/
  | notModelled (mnemonic : String)
  /-- Raised by `hostReset` for a program longer than `CODE_CAP`: the host interface refuses it and no run starts
  (R202). Safe: the spec gives the core no state there. -/
  | programTooLong
  deriving DecidableEq, Repr

/-- What an instruction or a step answers. -/
abbrev Result := Host.Outcome State Fault Refusal

/-- R38, with the parameters of this hardware and the empty program (R201: `L` = 0 is legal). -/
def State.reset : State where
  config := Config.hardware
  code := []
  pc := 0
  stk := []
  sp := 0
  cstk := []
  csp := 0
  mem := []
  run := true
  err := false
  cause := 0
  faultPc := 0

end Sys2Proof.Machine
end

