-- ==== Sys2Proof/Machine/Flags.lean ====
section
/-! DEFINITION. The run and error flags, the fault cause codes and the status word (spec 10_state.md rules R29 to R33,
60_exceptions.md rule R170). The core has no condition codes (R29): no instruction computes a flag. -/

namespace Sys2Proof.Machine

/-- R170, the code column (decision D10). Code 0 is NONE. -/
def Cause.code : Cause → BitVec 4
  | .stackOverflow => 1
  | .stackUnderflow => 2
  | .callStackOverflow => 3
  | .callStackUnderflow => 4
  | .memOutOfBounds => 5
  | .divByZero => 6
  | .invalidOpcode => 7
  | .pcOutOfBounds => 8

/-- R160: HALT's effect on the flags, `RUN` <- 0 with `ERR` as it was. -/
def State.clearRun (s : State) : State := { s with run := false }

/-- R176: what a fault writes, and all it writes. `FAULT_PC` takes `PC`, which holds the address at which the cycle
began because the cycle's own writes are cancelled. -/
def State.faulted (c : Cause) (s : State) : State :=
  { s with run := false, err := true, cause := c.code, faultPc := s.pc }

/-- R33: the status word, 00 in bits 7:6, `CAUSE` in 5:2, `ERR` in 1, `RUN` in 0. -/
def State.statusWord (s : State) : BitVec 8 :=
  (0 : BitVec 2) ++ s.cause ++ BitVec.ofBool s.err ++ BitVec.ofBool s.run

end Sys2Proof.Machine
end

