-- ==== Sys2Proof/Machine/Ops.lean ====
section
/-! DEFINITION. The named operations of the spec's pseudocode (00_scope.md rule R12) over the arrays, the two stacks,
the memory bank and the program counter; taking a fault (60_exceptions.md rule R176), from which nothing returns
(R177); and what `step` answers when the run has ended (30_encoding.md rule R77). -/

namespace Sys2Proof.Machine

/-! ### Arrays -/

/-- What a cell that is not listed holds: 0 (R36 for `CODE`, R38 for the other arrays). -/
def Memory.unlisted {w : Nat} : BitVec w := 0

/-- The cell at an address. -/
def Memory.read {w : Nat} : Memory w → Nat → BitVec w
  | [], _ => Memory.unlisted
  | (b, u) :: rest, a => if b = a then u else Memory.read rest a

/-- The array without a listing for an address. -/
def Memory.delist {w : Nat} : Memory w → Nat → Memory w
  | [], _ => []
  | (b, u) :: rest, a => if b = a then Memory.delist rest a else (b, u) :: Memory.delist rest a

/-- List a cell before the first one of a higher address. -/
def Memory.enlist {w : Nat} : Memory w → Nat → BitVec w → Memory w
  | [], a, v => [(a, v)]
  | (b, u) :: rest, a, v => if a < b then (a, v) :: (b, u) :: rest else (b, u) :: Memory.enlist rest a v

/-- Set one cell, keeping the canonical form: a cell set to what an unlisted one holds is not listed. -/
def Memory.write {w : Nat} (m : Memory w) (a : Nat) (v : BitVec w) : Memory w :=
  if v = Memory.unlisted then m.delist a else (m.delist a).enlist a v

/-- Listed addresses rise strictly from `low`, lie below `cap`, and hold other than an unlisted cell does. -/
def Memory.wfFrom {w : Nat} (cap : Nat) : Nat → Memory w → Bool
  | _, [] => true
  | low, (a, v) :: rest =>
    decide (low ≤ a) && decide (a < cap) && decide (v ≠ Memory.unlisted) && Memory.wfFrom cap (a + 1) rest

/-- The canonical form of an array of `cap` cells. -/
def Memory.wf {w : Nat} (cap : Nat) (m : Memory w) : Bool := Memory.wfFrom cap 0 m

/-! ### The program counter -/

/-- `pc <- target` (R12). -/
def State.setPc (target : Word) (s : State) : State := { s with pc := target }

/-- `next` (R80): the address after the last byte of an instruction that starts at `PC`. -/
def State.nextPc (s : State) (o : Op) : Word := s.pc + BitVec.ofNat 32 o.length

/-! ### The operand stack (R12, R23) -/

/-- `Top()`: `STK[SP-1]`. -/
def State.top (s : State) : Word := s.stk.read (s.sp - 1)

/-- The entry under the top: `STK[SP-2]`. -/
def State.second (s : State) : Word := s.stk.read (s.sp - 2)

/-- `Push(v)`: `STK[SP] <- v; SP <- SP + 1`. -/
def State.push (v : Word) (s : State) : State := { s with stk := s.stk.write s.sp v, sp := s.sp + 1 }

/-- `Pop()`: `SP <- SP - 1`; the slot keeps its value (R24). The value popped is `s.top`. -/
def State.pop (s : State) : State := { s with sp := s.sp - 1 }

/-! ### The call stack (R12, R34) -/

/-- The most recently pushed return address: `CSTK[CSP-1]`. -/
def State.ctop (s : State) : Word := s.cstk.read (s.csp - 1)

/-- `CPush(v)`. -/
def State.cpush (v : Word) (s : State) : State := { s with cstk := s.cstk.write s.csp v, csp := s.csp + 1 }

/-- `CPop()`; the value popped is `s.ctop`. -/
def State.cpop (s : State) : State := { s with csp := s.csp - 1 }

/-! ### The memory bank and the code buffer -/

/-- `MemRead(i)` after translation (R12): the word `MEM[i]`. -/
def State.memRead (s : State) (i : Nat) : Word := s.mem.read i

/-- `MemWrite(i, v)` after translation (R12): `MEM[i] <- v`. -/
def State.memWrite (i : Nat) (v : Word) (s : State) : State := { s with mem := s.mem.write i v }

/-- `CODE[a]` (R12). -/
def State.codeByte (s : State) (a : Nat) : Byte := s.code.read a

/-- The `n` bytes `CODE[a] .. CODE[a+n-1]`, lowest address first. -/
def State.codeBytes (s : State) (a n : Nat) : List Byte := (List.range n).map fun k => s.codeByte (a + k)

/-- Place bytes from an address on; an address at or above `CODE_CAP` does not exist and takes none. -/
def placeBytes (cap : Nat) : Memory 8 → Nat → List Byte → Memory 8
  | m, _, [] => m
  | m, a, b :: bs => placeBytes cap (if a < cap then m.write a b else m) (a + 1) bs

/-! ### Faults -/

/-- `raise Fault(C)` (R12, R176): the fault is taken; there is no handler, and nothing returns from it (R177). -/
def raise (c : Cause) (s : State) : Result := .next (s.faulted c)

/-- R77: with `RUN` = 0 no step is enabled. -/
def stopped (s : State) : Result := .fault (if s.err then .haltedOnError else .halted)

end Sys2Proof.Machine
end

