-- ==== Sys2Proof/Machine/Operands.lean ====
section
/-! DEFINITION. The operand forms: the index operand and its translator (spec 20_memory.md rule R56, 30_encoding.md
rule R73), the two entries of a binary operation (41_arithmetic.md rule R115), and their shared shape. The 4-byte
operand is used as it is (R73, R133) and needs no operation. -/

namespace Sys2Proof.Machine

/-- `zext_32` (R11). -/
def zext32 (b : Byte) : Word := b.setWidth 32

/-- R56, the memory address translator: the identity on indexes below `MEM_SIZE`. -/
def translate (c : Config) (idx8 : Byte) : Except Cause Nat :=
  let i := (zext32 idx8).toNat
  if c.memSize ≤ i then .error .memOutOfBounds else .ok i

/-- R115: `b`, the right operand, is the first popped. -/
def State.right (s : State) : Word := s.top

/-- R115: `a`, the left operand, is the second popped. -/
def State.left (s : State) : Word := s.second

/-- Both operands popped and the result pushed in their place, `PC` at `next`. -/
def State.replaceTwo (o : Op) (result : Word) (s : State) : State :=
  (s.pop.pop.push result).setPc (s.nextPc o)

/-- R115: a binary operation checks for two entries before it pops either. -/
def binaryOp (o : Op) (f : Word → Word → Word) (s : State) : Result :=
  if s.sp < 2 then raise .stackUnderflow s else .next (s.replaceTwo o (f s.left s.right))

end Sys2Proof.Machine
end

