-- ==== Sys2Proof/Machine/Arithmetic.lean ====
section
/-! DEFINITION. ADD, SUB, MUL, DIV, CMP (spec 41_arithmetic.md): exact on signed integers, narrowed at the end. -/

namespace Sys2Proof.Machine

/-- `wrap32` (R11). -/
def wrap32 (n : Int) : Word := BitVec.ofInt 32 n

/-- `tdiv` (R11): the quotient truncated toward zero. -/
def tdiv (a b : Int) : Int := a.sign * b.sign * ((a.natAbs / b.natAbs : Nat) : Int)

/-- R110. -/
def addWord (a b : Word) : Word := wrap32 (a.toInt + b.toInt)

/-- R111. -/
def subWord (a b : Word) : Word := wrap32 (a.toInt - b.toInt)

/-- R112. -/
def mulWord (a b : Word) : Word := wrap32 (a.toInt * b.toInt)

/-- R113; −2^31 divided by −1 wraps to −2^31 (decision D8). -/
def divWord (a b : Word) : Word := wrap32 (tdiv a.toInt b.toInt)

/-- R114: 1 if signed `a` < signed `b`, else 0. -/
def cmpWord (a b : Word) : Word := if a.toInt < b.toInt then 1 else 0

/-- R110. -/
def execAdd (s : State) : Result := binaryOp .add addWord s

/-- R111. -/
def execSub (s : State) : Result := binaryOp .sub subWord s

/-- R112. -/
def execMul (s : State) : Result := binaryOp .mul mulWord s

/-- R113: the divisor is tested after the depth, with nothing popped. -/
def execDiv (s : State) : Result :=
  if s.sp < 2 then raise .stackUnderflow s
  else if s.right = 0 then raise .divByZero s
  else .next (s.replaceTwo .div (divWord s.left s.right))

/-- R114. -/
def execCmp (s : State) : Result := binaryOp .cmp cmpWord s

end Sys2Proof.Machine
end

