-- ==== Sys2Proof/Machine/Branch.lean ====
section
/-! DEFINITION. JMP, JZ, JNZ (spec 42_branch.md). A target is stored unmasked (R133). -/

namespace Sys2Proof.Machine

/-- R130. -/
def execJmp (target : Word) (s : State) : Result := .next (s.setPc target)

/-- R131. -/
def execJz (target : Word) (s : State) : Result :=
  if s.sp = 0 then raise .stackUnderflow s
  else .next (s.pop.setPc (if s.top = 0 then target else s.nextPc .jz))

/-- R132. -/
def execJnz (target : Word) (s : State) : Result :=
  if s.sp = 0 then raise .stackUnderflow s
  else .next (s.pop.setPc (if s.top ≠ 0 then target else s.nextPc .jnz))

end Sys2Proof.Machine
end

