-- ==== Sys2Proof/Machine/MemoryBank.lean ====
section
/-! DEFINITION. STORE, LOAD (spec 43_memory_access.md): the stack is checked before the index (R178). -/

namespace Sys2Proof.Machine

/-- R140. -/
def execStore (idx : Byte) (s : State) : Result :=
  if s.sp = 0 then raise .stackUnderflow s
  else match translate s.config idx with
    | .error c => raise c s
    | .ok i => .next ((s.pop.memWrite i s.top).setPc (s.nextPc .store))

/-- R141. -/
def execLoad (idx : Byte) (s : State) : Result :=
  if s.sp = s.config.stackCap then raise .stackOverflow s
  else match translate s.config idx with
    | .error c => raise c s
    | .ok i => .next ((s.push (s.memRead i)).setPc (s.nextPc .load))

end Sys2Proof.Machine
end

