-- ==== Sys2Proof/Machine/Stack.lean ====
section
/-! DEFINITION. PUSH, POP, DUP (spec 40_stack.md). -/

namespace Sys2Proof.Machine

/-- R100. -/
def execPush (imm : Word) (s : State) : Result :=
  if s.sp = s.config.stackCap then raise .stackOverflow s
  else .next ((s.push imm).setPc (s.nextPc .push))

/-- R101. -/
def execPop (s : State) : Result :=
  if s.sp = 0 then raise .stackUnderflow s
  else .next (s.pop.setPc (s.nextPc .pop))

/-- R102, with the overflow check of 90_conflicts.md C2 after the underflow check. -/
def execDup (s : State) : Result :=
  if s.sp = 0 then raise .stackUnderflow s
  else if s.sp = s.config.stackCap then raise .stackOverflow s
  else .next ((s.push s.top).setPc (s.nextPc .dup))

end Sys2Proof.Machine
end

