-- ==== Sys2Proof/Machine/Subroutine.lean ====
section
/-! DEFINITION. CALL, RET (spec 44_subroutine.md). -/

namespace Sys2Proof.Machine

/-- R150. -/
def execCall (target : Word) (s : State) : Result :=
  if s.csp = s.config.callCap then raise .callStackOverflow s
  else .next ((s.cpush (s.nextPc .call)).setPc target)

/-- R151. -/
def execRet (s : State) : Result :=
  if s.csp = 0 then raise .callStackUnderflow s
  else .next (s.cpop.setPc s.ctop)

end Sys2Proof.Machine
end

