-- ==== Sys2Proof/Machine/System.lean ====
section
/-! DEFINITION. HALT (spec 45_system.md). -/

namespace Sys2Proof.Machine

/-- R160: `RUN` <- 0, and `PC` at `next` by the default of R81. -/
def execHalt (s : State) : Result := .next (s.clearRun.setPc (s.nextPc .halt))

end Sys2Proof.Machine
end

