-- ==== Sys2Proof/Machine/Dispatch.lean ====
section
/-! DEFINITION. `Execute(m, opnd)` of spec 30_encoding.md rule R81: the exhaustive dispatch of R82. -/

namespace Sys2Proof.Machine

def exec (i : Instr) (s : State) : Host.Outcome State Fault Refusal :=
  match i with
  | .push imm => Sys2Proof.Machine.execPush imm s
  | .pop => Sys2Proof.Machine.execPop s
  | .dup => Sys2Proof.Machine.execDup s
  | .add => Sys2Proof.Machine.execAdd s
  | .sub => Sys2Proof.Machine.execSub s
  | .mul => Sys2Proof.Machine.execMul s
  | .div => Sys2Proof.Machine.execDiv s
  | .cmp => Sys2Proof.Machine.execCmp s
  | .jmp target => Sys2Proof.Machine.execJmp target s
  | .jz target => Sys2Proof.Machine.execJz target s
  | .jnz target => Sys2Proof.Machine.execJnz target s
  | .store idx => Sys2Proof.Machine.execStore idx s
  | .load idx => Sys2Proof.Machine.execLoad idx s
  | .call target => Sys2Proof.Machine.execCall target s
  | .ret => Sys2Proof.Machine.execRet s
  | .halt => Sys2Proof.Machine.execHalt s

end Sys2Proof.Machine
end

