-- ==== Sys2Proof/Machine/Fetch.lean ====
section
/-! DEFINITION. The fetch half of the cycle (spec 30_encoding.md rules R78 to R81, in the order of 60_exceptions.md
rule R178): the bytes of the code buffer at `PC`, decoded. -/

namespace Sys2Proof.Machine

/-- The fault a decoding error raises: an invalid opcode byte (R76), or an operand past the end of the buffer
(R79). -/
def causeOfDecodeError : DecodeError → Cause
  | .noOpcode => .pcOutOfBounds
  | .invalidOpcode _ => .invalidOpcode
  | .truncatedOperand _ => .pcOutOfBounds

/-- The bytes an instruction at `PC` can take: as many as the longest has, and none at or above `CODE_CAP`. -/
def fetchWindow (s : State) : List Byte :=
  s.codeBytes s.pc.toNat (min maxLength (s.config.codeCap - s.pc.toNat))

/-- R81 from `a := PC` to `opnd`: the bound on `PC` (R78), the opcode (R76), the bound on the operand (R79). -/
def fetch (s : State) : Except Cause Instr :=
  if s.config.codeCap ≤ s.pc.toNat then .error .pcOutOfBounds
  else match decode s.config.opcodes (fetchWindow s) with
    | .error e => .error (causeOfDecodeError e)
    | .ok (i, _) => .ok i

/-- The code buffer with bytes stored where the next fetch reads. -/
def State.placeAtPc (s : State) (bytes : List Byte) : State :=
  { s with code := placeBytes s.config.codeCap s.code s.pc.toNat bytes }

end Sys2Proof.Machine
end

