-- ==== Sys2Proof/Machine/Step.lean ====
section
/-! DEFINITION. One step of the core (spec 30_encoding.md rules R77 and R81). -/

namespace Sys2Proof.Machine

/-- R81: while `RUN` = 1, fetch and execute; a fault of the fetch is raised; with `RUN` = 0 there is no step. -/
def step (s : State) : Host.Outcome State Fault Refusal :=
  if s.run then
    match fetch s with
    | .ok i => exec i s
    | .error c => raise c s
  else stopped s

/-- `s` with the table word `w` of `nbits` bits stored in the code buffer at `PC`, followed by zeros up to the
longest instruction. The run flag and `PC` are left as they are: from reset the next step runs the instruction. -/
def State.withFetchWord (s : State) (nbits w : Nat) : State := s.placeAtPc (tableBytes nbits w)

end Sys2Proof.Machine
end

