-- ==== Sys2Proof/Machine/Assembler.lean ====
section
/-! DEFINITION. The syntax and encoding contract of the assembler (spec 30_encoding.md rules R84 to R87), which
00_scope.md rule R5 keeps of the assembler program: a source text to the binary artifact. A text is a list of
characters. -/

namespace Sys2Proof.Machine

/-- A mnemonic or a literal: the characters between white space (R84). -/
abbrev Token := List Char

/-- R86: why a text does not assemble. -/
inductive AsmError where
  | unrecognizedMnemonic (token : Token)   -- "An unrecognized mnemonic token is a fatal error"
  | malformedOperand (token : Token)       -- an operand token that is no literal, or out of a 4-byte operand's range
  | missingOperand (op : Op)               -- "a mnemonic requiring an operand followed by a … missing token"
  deriving DecidableEq, Repr

/-- R84: the mnemonic of an opcode, in upper case. -/
def mnemonic : Op → Token
  | .push => ['P', 'U', 'S', 'H']
  | .pop => ['P', 'O', 'P']
  | .dup => ['D', 'U', 'P']
  | .add => ['A', 'D', 'D']
  | .sub => ['S', 'U', 'B']
  | .mul => ['M', 'U', 'L']
  | .div => ['D', 'I', 'V']
  | .cmp => ['C', 'M', 'P']
  | .jmp => ['J', 'M', 'P']
  | .jz => ['J', 'Z']
  | .jnz => ['J', 'N', 'Z']
  | .store => ['S', 'T', 'O', 'R', 'E']
  | .load => ['L', 'O', 'A', 'D']
  | .call => ['C', 'A', 'L', 'L']
  | .ret => ['R', 'E', 'T']
  | .halt => ['H', 'A', 'L', 'T']

/-- The opcode a token names, matched letter for letter (R84). -/
def opOfMnemonic (t : Token) : Option Op := Op.all.find? (fun o => mnemonic o == t)

/-- The characters that separate tokens (R84 "whitespace-separated"). DESIGN CHOICE (log entry 13): space, tab,
line feed, carriage return. -/
def isSeparator (c : Char) : Bool := c == ' ' || c == '\t' || c == '\n' || c == '\r'

/-- The tokens of a text; `current` holds the token being read, last character first. -/
def tokensFrom (current : Token) : List Char → List Token
  | [] => if current = [] then [] else [current.reverse]
  | c :: rest =>
    if isSeparator c then
      if current = [] then tokensFrom [] rest else current.reverse :: tokensFrom [] rest
    else tokensFrom (c :: current) rest

/-- R84: the whitespace-separated tokens of a text. -/
def tokenize (text : List Char) : List Token := tokensFrom [] text

/-- The value of a decimal digit. -/
def digitValue (c : Char) : Option Nat :=
  if '0'.toNat ≤ c.toNat ∧ c.toNat ≤ '9'.toNat then some (c.toNat - '0'.toNat) else none

/-- The value of a digit string read after `value`. -/
def digitsFrom (value : Nat) : List Char → Option Nat
  | [] => some value
  | c :: rest =>
    match digitValue c with
    | none => none
    | some d => digitsFrom (10 * value + d) rest

/-- One or more decimal digits. -/
def parseNat : Token → Option Nat
  | [] => none
  | c :: rest => digitsFrom 0 (c :: rest)

/-- R84 (decision D17): a literal is an optional `-` followed by one or more decimal digits. -/
def parseLiteral : Token → Option Int
  | [] => none
  | c :: rest =>
    if c = '-' then (parseNat rest).map (fun n : Nat => -(n : Int))
    else (parseNat (c :: rest)).map (fun n : Nat => (n : Int))

/-- R84: a 4-byte operand literal lies in −2^31 .. 2^31 − 1; R85: it is encoded as a signed 32-bit integer. -/
def wordOperand (t : Token) : Except AsmError Word :=
  match parseLiteral t with
  | none => .error (.malformedOperand t)
  | some n => if -2 ^ 31 ≤ n ∧ n < 2 ^ 31 then .ok (BitVec.ofInt 32 n) else .error (.malformedOperand t)

/-- R85: a 1-byte operand is the low 8 bits of the literal; "Values outside this range are truncated, not
rejected". -/
def indexOperand (t : Token) : Except AsmError Byte :=
  match parseLiteral t with
  | none => .error (.malformedOperand t)
  | some n => .ok (BitVec.ofInt 8 n)

/-- What an opcode needs to be an instruction of a source text (R84): nothing, or an operand token. -/
inductive Written where
  | whole (i : Instr)                               -- format N
  | word (make : Word → Instr)                      -- format I32
  | index (make : Byte → Instr)                     -- format I8

/-- R84: the opcodes with a 4-byte operand, a 1-byte operand and no operand. -/
def written : Op → Written
  | .push => .word .push
  | .pop => .whole .pop
  | .dup => .whole .dup
  | .add => .whole .add
  | .sub => .whole .sub
  | .mul => .whole .mul
  | .div => .whole .div
  | .cmp => .whole .cmp
  | .jmp => .word .jmp
  | .jz => .word .jz
  | .jnz => .word .jnz
  | .store => .index .store
  | .load => .index .load
  | .call => .word .call
  | .ret => .whole .ret
  | .halt => .whole .halt

/-- R84, R86: the instructions of a token sequence, or the first error; nothing of a text with an error is kept. -/
def parseTokens : List Token → Except AsmError (List Instr)
  | [] => .ok []
  | t :: rest =>
    match opOfMnemonic t with
    | none => .error (.unrecognizedMnemonic t)
    | some o =>
      match written o with
      | .whole i => (parseTokens rest).map (i :: ·)
      | .word make =>
        match rest with
        | [] => .error (.missingOperand o)
        | operand :: rest' =>
          match wordOperand operand with
          | .error e => .error e
          | .ok w => (parseTokens rest').map (make w :: ·)
      | .index make =>
        match rest with
        | [] => .error (.missingOperand o)
        | operand :: rest' =>
          match indexOperand operand with
          | .error e => .error e
          | .ok b => (parseTokens rest').map (make b :: ·)

/-- R85: the binary artifact of a source text, the concatenation of its instructions in source order. -/
def assemble (m : OpcodeMap) (text : List Char) : Except AsmError (List Byte) :=
  (parseTokens (tokenize text)).map (encodeProgram m)

end Sys2Proof.Machine
end

