-- ==== Sys2Proof/Machine/HostInterface.lean ====
section
/-! DEFINITION. The host's side of the core (spec 70_reset_and_hazards.md): the reset that loads a program (R200 to
R203), the outputs (R205, R161), the end of a run (R206) and a run under the host's fuel (R208). Nothing here is part
of `step`: the only input that changes a core is reset. -/

namespace Sys2Proof.Machine

/-- `Reset(P, L)` (R200) of a core built with the parameters `c`: every piece of state at its value of R38, the
program at code address 0; a program longer than `CODE_CAP` is refused (R202). -/
def hostReset (c : Config) (program : List Byte) : Result :=
  if c.accepts program then
    .next { State.reset with config := c, code := placeBytes c.codeCap [] 0 program }
  else .refused .programTooLong

/-- R161, R205: `result_valid`. -/
def State.resultValid (s : State) : Bool := decide (0 < s.sp)

/-- R161, R205: `result`, given when `result_valid` is 1. -/
def State.result (s : State) : Option Word := if s.resultValid then some s.top else none

/-- The output signals of R205. -/
structure Outputs where
  status      : BitVec 8        -- `status`, the status word of R33
  faultPc     : Word            -- `fault_pc`
  resultValid : Bool            -- `result_valid`
  result      : Option Word     -- `result`, where `result_valid` is 1
  deriving DecidableEq, Repr

/-- R205: what the host reads, at any time. -/
def State.outputs (s : State) : Outputs where
  status := s.statusWord
  faultPc := s.faultPc
  resultValid := s.resultValid
  result := s.result

/-- What the host knows of a run (R206). -/
inductive RunStatus where
  | running                                         -- `RUN` = 1: the run has not ended
  | clean (result : Option Word)                    -- ended by HALT, with the halt report of R161
  | onError (cause : BitVec 4) (faultPc : Word)     -- ended by a fault
  deriving DecidableEq, Repr

/-- R206: a run ends at the first state with `RUN` = 0, cleanly if `ERR` = 0 and on error if `ERR` = 1. -/
def State.runStatus (s : State) : RunStatus :=
  if s.run then .running
  else if s.err then .onError s.cause s.faultPc
  else .clean s.result

/-- The core under the host's instruction-count ceiling (R208): at most `fuel` cycles, none once `RUN` = 0. A core
stopped by the ceiling is still running. -/
def runUnder : Nat → State → State
  | 0, s => s
  | fuel + 1, s =>
    if s.run then
      match step s with
      | .next t => runUnder fuel t
      | .fault _ => s
      | .refused _ => s
    else s

end Sys2Proof.Machine
end

