-- ==== Sys2Proof/Machine/Sequence.lean ====
section
/-! DEFINITION. The core with its two stacks as the source's "ordered sequences" (spec 10_state.md rules R23 and R34)
in place of an array and a pointer. Decision D21 calls the two forms observably equal; the machine is the array form,
and this second form is what the claim of that equality is stated against. -/

namespace Sys2Proof.Machine

/-- The first `n` cells of an array as a sequence, the highest first: the head of a stack's sequence is its top. -/
def entries {w : Nat} (m : Memory w) : Nat → List (BitVec w)
  | 0 => []
  | n + 1 => m.read n :: entries m n

/-- The state of R20 with sequences for the two stacks. -/
structure SeqState where
  config  : Config
  code    : Memory 8
  pc      : Word
  stack   : List Word   -- the operand stack, its top first
  calls   : List Word   -- the call stack, its top first
  mem     : Memory 32
  run     : Bool
  err     : Bool
  cause   : BitVec 4
  faultPc : Word
  deriving DecidableEq, Repr

/-- What a state of the machine is as sequences. -/
def State.seq (s : State) : SeqState where
  config := s.config
  code := s.code
  pc := s.pc
  stack := entries s.stk s.sp
  calls := entries s.cstk s.csp
  mem := s.mem
  run := s.run
  err := s.err
  cause := s.cause
  faultPc := s.faultPc

/-- R176 on sequences. -/
def SeqState.faulted (c : Cause) (q : SeqState) : SeqState :=
  { q with run := false, err := true, cause := c.code, faultPc := q.pc }

/-- An instruction that leaves the operand stack as given and `PC` at `next`. -/
def SeqState.continueWith (o : Op) (stack : List Word) (q : SeqState) : SeqState :=
  { q with stack := stack, pc := q.pc + BitVec.ofNat 32 o.length }

/-- An instruction that takes the top entry: STACK_UNDERFLOW on an empty sequence. -/
def SeqState.withTop (q : SeqState) (effect : Word → List Word → SeqState) : SeqState :=
  match q.stack with
  | v :: rest => effect v rest
  | [] => q.faulted .stackUnderflow

/-- R115 on sequences, an instruction that takes two entries: the head is `b`, the entry after it `a`. -/
def SeqState.withTwo (q : SeqState) (effect : (a b : Int) → List Word → SeqState) : SeqState :=
  match q.stack with
  | b :: a :: rest => effect a.toInt b.toInt rest
  | _ => q.faulted .stackUnderflow

/-- An instruction that adds an entry: STACK_OVERFLOW on a full sequence. -/
def SeqState.withRoom (q : SeqState) (effect : SeqState) : SeqState :=
  if q.stack.length = q.config.stackCap then q.faulted .stackOverflow else effect

/-- R56 on sequences. -/
def SeqState.withWord (q : SeqState) (idx : Byte) (effect : Nat → SeqState) : SeqState :=
  if q.config.memSize ≤ idx.toNat then q.faulted .memOutOfBounds else effect idx.toNat

/-- The instruction rules R100 to R160 on sequences. -/
def seqExec (i : Instr) (q : SeqState) : SeqState :=
  match i with
  | .push imm => q.withRoom (q.continueWith .push (imm :: q.stack))
  | .pop => q.withTop fun _ rest => q.continueWith .pop rest
  | .dup => q.withTop fun v rest => q.withRoom (q.continueWith .dup (v :: v :: rest))
  | .add => q.withTwo fun a b rest => q.continueWith .add (wrap32 (a + b) :: rest)
  | .sub => q.withTwo fun a b rest => q.continueWith .sub (wrap32 (a - b) :: rest)
  | .mul => q.withTwo fun a b rest => q.continueWith .mul (wrap32 (a * b) :: rest)
  | .div => q.withTwo fun a b rest =>
      if b = 0 then q.faulted .divByZero else q.continueWith .div (wrap32 (Int.tdiv a b) :: rest)
  | .cmp => q.withTwo fun a b rest => q.continueWith .cmp ((if a < b then 1 else 0) :: rest)
  | .jmp target => { q with pc := target }
  | .jz target => q.withTop fun v rest =>
      if v = 0 then { q with stack := rest, pc := target } else q.continueWith .jz rest
  | .jnz target => q.withTop fun v rest =>
      if v = 0 then q.continueWith .jnz rest else { q with stack := rest, pc := target }
  | .store idx => q.withTop fun v rest => q.withWord idx fun k =>
      { q.continueWith .store rest with mem := q.mem.write k v }
  | .load idx => q.withRoom (q.withWord idx fun k => q.continueWith .load (q.mem.read k :: q.stack))
  | .call target =>
      if q.calls.length = q.config.callCap then q.faulted .callStackOverflow
      else { q with calls := (q.pc + BitVec.ofNat 32 Op.call.length) :: q.calls, pc := target }
  | .ret =>
      match q.calls with
      | v :: rest => { q with calls := rest, pc := v }
      | [] => q.faulted .callStackUnderflow
  | .halt => { q with run := false, pc := q.pc + BitVec.ofNat 32 Op.halt.length }

end Sys2Proof.Machine
end

