-- ==== Sys2Proof/Safety.lean ====
section
/-! DEFINITION. The terms the claims are stated in: the invariant that every step keeps, what a program can observe,
the cycle as the spec writes it out, what an instruction pops and pushes, and runs of several steps. -/

namespace Sys2Proof.Machine

/-- What the spec says of every reachable state. -/
structure State.Inv (s : State) : Prop where
  /-- R7: the parameters meet their constraints. -/
  config : s.config.wf = true
  /-- R36: the code buffer, in canonical form, has no byte at or above `CODE_CAP`. -/
  code : s.code.wf s.config.codeCap = true
  /-- R23: no slot of the operand stack at or above `STACK_CAP` is written. -/
  stk : s.stk.wf s.config.stackCap = true
  /-- R23: 0 ≤ `SP` ≤ `STACK_CAP`. -/
  sp : s.sp ≤ s.config.stackCap
  /-- R34: no slot of the call stack at or above `CALL_CAP` is written. -/
  cstk : s.cstk.wf s.config.callCap = true
  /-- R34: 0 ≤ `CSP` ≤ `CALL_CAP`. -/
  csp : s.csp ≤ s.config.callCap
  /-- R35: every return address lies in 1 .. `CODE_CAP`. -/
  returns : ∀ k, k < s.csp → 1 ≤ (s.cstk.read k).toNat ∧ (s.cstk.read k).toNat ≤ s.config.codeCap
  /-- R37: the memory bank, in canonical form, has no word at or above `MEM_SIZE`. -/
  mem : s.mem.wf s.config.memSize = true
  /-- R30: `RUN` = 1 with `ERR` = 1 is unreachable. -/
  flags : s.run = true → s.err = false
  /-- R31, R32: with no fault, `CAUSE` and `FAULT_PC` are 0. -/
  noFault : s.err = false → s.cause = 0 ∧ s.faultPc = 0
  /-- R31, R170, R172: after a fault, `CAUSE` is the code of a fault and `FAULT_PC` is the `PC` it left (R176). -/
  fault : s.err = true → (∃ c : Cause, s.cause = c.code) ∧ s.faultPc = s.pc

/-- The two states agree on all that R24 and R34 leave observable: everything but the stack slots at or above the
pointers. -/
structure State.SameVisible (s t : State) : Prop where
  config : s.config = t.config
  code : s.code = t.code
  pc : s.pc = t.pc
  sp : s.sp = t.sp
  stk : ∀ k, k < s.sp → s.stk.read k = t.stk.read k
  csp : s.csp = t.csp
  cstk : ∀ k, k < s.csp → s.cstk.read k = t.cstk.read k
  mem : s.mem = t.mem
  run : s.run = t.run
  err : s.err = t.err
  cause : s.cause = t.cause
  faultPc : s.faultPc = t.faultPc

/-- Two results are of one kind, with next states that look the same. -/
def SameOutcome : Result → Result → Prop
  | .next s, .next t => s.SameVisible t
  | .fault r, .fault q => r = q
  | .refused r, .refused q => r = q
  | _, _ => False

/-- `n` steps, each answering a next state and none of them running an instruction of `avoid`. -/
def StepsAvoiding (avoid : Instr → Prop) : Nat → State → State → Prop
  | 0, s, t => t = s
  | n + 1, s, t => (∀ i, fetch s = .ok i → ¬ avoid i) ∧ ∃ u, step s = .next u ∧ StepsAvoiding avoid n u t

/-- `CodeRead(a, 4)` (R12): `{CODE[a+3], CODE[a+2], CODE[a+1], CODE[a]}`. -/
def State.codeRead4 (s : State) (a : Nat) : Word :=
  s.codeByte (a + 3) ++ s.codeByte (a + 2) ++ s.codeByte (a + 1) ++ s.codeByte a

/-- `opnd` of R81, from operand address `p`, as a 32-bit pattern. -/
def State.operandAt (s : State) (o : Op) (p : Nat) : Word :=
  match o.format with
  | .n => 0
  | .i8 => zext32 (s.codeByte p)
  | .i32 => s.codeRead4 p

/-- The instruction of an opcode and its operand value. -/
def instrOf (o : Op) (opnd : Word) : Instr :=
  match o with
  | .push => .push opnd
  | .pop => .pop
  | .dup => .dup
  | .add => .add
  | .sub => .sub
  | .mul => .mul
  | .div => .div
  | .cmp => .cmp
  | .jmp => .jmp opnd
  | .jz => .jz opnd
  | .jnz => .jnz opnd
  | .store => .store (opnd.setWidth 8)
  | .load => .load (opnd.setWidth 8)
  | .call => .call opnd
  | .ret => .ret
  | .halt => .halt

/-- `Step()` as R81 writes it, for a core with `RUN` = 1. -/
def cycleAsWritten (s : State) : Result :=
  let a := s.pc.toNat
  if a ≥ s.config.codeCap then raise .pcOutOfBounds s
  else
    match s.config.opcodes.opcodeOf (s.codeByte a) with
    | none => raise .invalidOpcode s
    | some o =>
      let w := o.format.width
      if a + 1 + w > s.config.codeCap then raise .pcOutOfBounds s
      else exec (instrOf o (s.operandAt o (a + 1))) s

/-- R178, step 4: an instruction's own checks in their order, each with the fault it raises. -/
def checksOf (i : Instr) (s : State) : List (Bool × Cause) :=
  let empty := (decide (s.sp = 0), Cause.stackUnderflow)
  let lessThanTwo := (decide (s.sp < 2), Cause.stackUnderflow)
  let full := (decide (s.sp = s.config.stackCap), Cause.stackOverflow)
  let outside (idx : Byte) := (decide (s.config.memSize ≤ idx.toNat), Cause.memOutOfBounds)
  match i with
  | .push _ => [full]
  | .pop => [empty]
  | .dup => [empty, full]
  | .add => [lessThanTwo]
  | .sub => [lessThanTwo]
  | .mul => [lessThanTwo]
  | .div => [lessThanTwo, (decide (s.stk.read (s.sp - 1) = 0), Cause.divByZero)]
  | .cmp => [lessThanTwo]
  | .jmp _ => []
  | .jz _ => [empty]
  | .jnz _ => [empty]
  | .store idx => [empty, outside idx]
  | .load idx => [full, outside idx]
  | .call _ => [(decide (s.csp = s.config.callCap), Cause.callStackOverflow)]
  | .ret => [(decide (s.csp = 0), Cause.callStackUnderflow)]
  | .halt => []

/-- The fault of the first check that fails. -/
def firstFailing : List (Bool × Cause) → Option Cause
  | [] => none
  | (fails, c) :: rest => if fails then some c else firstFailing rest

/-- R178: the fault an instruction raises; `none` when it completes. -/
def firstFault (i : Instr) (s : State) : Option Cause := firstFailing (checksOf i s)

/-- R26: the target an instruction writes to `PC`, if it writes one. -/
def targetOf (i : Instr) (s : State) : Option Word :=
  match i with
  | .jmp target => some target
  | .jz target => if s.stk.read (s.sp - 1) = 0 then some target else none
  | .jnz target => if s.stk.read (s.sp - 1) = 0 then none else some target
  | .call target => some target
  | .ret => some (s.cstk.read (s.csp - 1))
  | .push _ | .pop | .dup | .add | .sub | .mul | .div | .cmp | .store _ | .load _ | .halt => none

/-- From `s` to `t` one slot of the operand stack takes `v`, `SP` and `PC` take the values given, and nothing else
changes. -/
def WritesStackSlot (s t : State) (slot : Nat) (v : Word) (sp : Nat) (pc : Word) : Prop :=
  t = { s with stk := t.stk, sp := sp, pc := pc } ∧ t.stk.read slot = v ∧
    ∀ k, k ≠ slot → t.stk.read k = s.stk.read k

/-- R39, the operand-stack column: how many entries an instruction pops. -/
def popCount : Instr → Nat
  | .add | .sub | .mul | .div | .cmp => 2
  | .pop | .jz _ | .jnz _ | .store _ => 1
  | .push _ | .dup | .jmp _ | .load _ | .call _ | .ret | .halt => 0

/-- R39, the operand-stack column: how many entries an instruction pushes. -/
def pushCount : Instr → Nat
  | .push _ | .dup | .load _ | .add | .sub | .mul | .div | .cmp => 1
  | .pop | .jz _ | .jnz _ | .store _ | .jmp _ | .call _ | .ret | .halt => 0

/-- The operand of an instruction in a source text (R84, R85): `literal` spells it. -/
def SpellsOperand (i : Instr) (literal : Token) : Prop :=
  match written i.op with
  | .whole _ => True
  | .word make => ∃ n : Int, parseLiteral literal = some n ∧ -2 ^ 31 ≤ n ∧ n < 2 ^ 31 ∧ i = make (BitVec.ofInt 32 n)
  | .index make => ∃ n : Int, parseLiteral literal = some n ∧ i = make (BitVec.ofInt 8 n)

/-- The tokens of an instruction (R84): its mnemonic, and its literal if it takes an operand. -/
def sourceTokens (i : Instr) (literal : Token) : List Token :=
  match i.op.format with
  | .n => [mnemonic i.op]
  | .i8 | .i32 => [mnemonic i.op, literal]

end Sys2Proof.Machine
end

