-- ==== Sys2Proof/Certificates/Slice0/Obligations.lean ====
section
/-! DEFINITION. The statements about the model. Each docstring names the rules of the spec it formalises; a decision
of the spec (D<n>) or a choice of the model (log entry) that a statement rests on is named there too. -/

open Sys2Proof Sys2Proof.Machine

/-! ### Stack instructions -/

/-- R100. -/
def Obligations.PushPushesItsConstant : Prop :=
  (∀ (i0 i1 i2 i3 : Byte) (rest : List Byte),
    decode OpcodeMap.hardware (0x01 :: i0 :: i1 :: i2 :: i3 :: rest) = .ok (.push (i3 ++ i2 ++ i1 ++ i0), rest)) ∧
  ∀ (imm : Word) (s : State),
    (s.sp = s.config.stackCap → exec (.push imm) s = .next (s.faulted .stackOverflow)) ∧
    (s.sp ≠ s.config.stackCap →
      ∃ t, exec (.push imm) s = .next t ∧ WritesStackSlot s t s.sp imm (s.sp + 1) (s.pc + 5))

/-- R101. -/
def Obligations.PopDiscardsTheTop : Prop :=
  (∀ rest : List Byte, decode OpcodeMap.hardware (0x02 :: rest) = .ok (.pop, rest)) ∧
  ∀ s : State,
    (s.sp = 0 → exec .pop s = .next (s.faulted .stackUnderflow)) ∧
    (s.sp ≠ 0 → exec .pop s = .next { s with sp := s.sp - 1, pc := s.pc + 1 })

/-- R102 (the overflow check is 90_conflicts.md C2). -/
def Obligations.DupCopiesTheTop : Prop :=
  (∀ rest : List Byte, decode OpcodeMap.hardware (0x03 :: rest) = .ok (.dup, rest)) ∧
  ∀ s : State,
    (s.sp = 0 → exec .dup s = .next (s.faulted .stackUnderflow)) ∧
    (s.sp ≠ 0 → s.sp = s.config.stackCap → exec .dup s = .next (s.faulted .stackOverflow)) ∧
    (s.sp ≠ 0 → s.sp ≠ s.config.stackCap →
      ∃ t, exec .dup s = .next t ∧ WritesStackSlot s t s.sp (s.stk.read (s.sp - 1)) (s.sp + 1) (s.pc + 1))

/-- R103, of every instruction that pushes or pops. -/
def Obligations.StackMutationsStayInBounds : Prop :=
  ∀ (i : Instr) (s t : State), s.sp ≤ s.config.stackCap → exec i s = .next t →
    t.sp ≤ s.config.stackCap ∧
    (∀ k, s.config.stackCap ≤ k → t.stk.read k = s.stk.read k) ∧
    (firstFault i s = none → popCount i ≤ s.sp) ∧
    (∀ c, firstFault i s = some c → t.stk = s.stk ∧ t.sp = s.sp)

/-! ### Arithmetic -/

/-- R110 (wrapping is decision D7). -/
def Obligations.AddPushesTheWrappedSum : Prop :=
  (∀ rest : List Byte, decode OpcodeMap.hardware (0x04 :: rest) = .ok (.add, rest)) ∧
  ∀ s : State,
    (s.sp < 2 → exec .add s = .next (s.faulted .stackUnderflow)) ∧
    (2 ≤ s.sp → ∃ t, exec .add s = .next t ∧
      WritesStackSlot s t (s.sp - 2)
        (wrap32 ((s.stk.read (s.sp - 2)).toInt + (s.stk.read (s.sp - 1)).toInt)) (s.sp - 1) (s.pc + 1))

/-- R111 (wrapping is decision D7). -/
def Obligations.SubPushesTheWrappedDifference : Prop :=
  (∀ rest : List Byte, decode OpcodeMap.hardware (0x05 :: rest) = .ok (.sub, rest)) ∧
  ∀ s : State,
    (s.sp < 2 → exec .sub s = .next (s.faulted .stackUnderflow)) ∧
    (2 ≤ s.sp → ∃ t, exec .sub s = .next t ∧
      WritesStackSlot s t (s.sp - 2)
        (wrap32 ((s.stk.read (s.sp - 2)).toInt - (s.stk.read (s.sp - 1)).toInt)) (s.sp - 1) (s.pc + 1))

/-- R112 (wrapping is decision D7). -/
def Obligations.MulPushesTheLowProduct : Prop :=
  (∀ rest : List Byte, decode OpcodeMap.hardware (0x06 :: rest) = .ok (.mul, rest)) ∧
  ∀ s : State,
    (s.sp < 2 → exec .mul s = .next (s.faulted .stackUnderflow)) ∧
    (2 ≤ s.sp → ∃ t, exec .mul s = .next t ∧
      WritesStackSlot s t (s.sp - 2)
        (wrap32 ((s.stk.read (s.sp - 2)).toInt * (s.stk.read (s.sp - 1)).toInt)) (s.sp - 1) (s.pc + 1))

/-- R113, the quotient by Lean's own truncating division; the overflowing case is decision D8. -/
def Obligations.DivPushesTheTruncatedQuotient : Prop :=
  (∀ rest : List Byte, decode OpcodeMap.hardware (0x07 :: rest) = .ok (.div, rest)) ∧
  (∀ s : State,
    (s.sp < 2 → exec .div s = .next (s.faulted .stackUnderflow)) ∧
    (2 ≤ s.sp → s.stk.read (s.sp - 1) = 0 → exec .div s = .next (s.faulted .divByZero)) ∧
    (2 ≤ s.sp → s.stk.read (s.sp - 1) ≠ 0 → ∃ t, exec .div s = .next t ∧
      WritesStackSlot s t (s.sp - 2)
        (wrap32 (Int.tdiv (s.stk.read (s.sp - 2)).toInt (s.stk.read (s.sp - 1)).toInt)) (s.sp - 1) (s.pc + 1))) ∧
  wrap32 (Int.tdiv (-2 ^ 31) (-1)) = BitVec.ofInt 32 (-2 ^ 31)

/-- R114. -/
def Obligations.CmpPushesSignedLess : Prop :=
  (∀ rest : List Byte, decode OpcodeMap.hardware (0x08 :: rest) = .ok (.cmp, rest)) ∧
  ∀ s : State,
    (s.sp < 2 → exec .cmp s = .next (s.faulted .stackUnderflow)) ∧
    (2 ≤ s.sp → ∃ t, exec .cmp s = .next t ∧
      WritesStackSlot s t (s.sp - 2)
        (if (s.stk.read (s.sp - 2)).toInt < (s.stk.read (s.sp - 1)).toInt then 1 else 0) (s.sp - 1) (s.pc + 1))

/-- R115, on the stack as a sequence with its top first: `b` is the first popped, `a` the second, and the result of
the operation on `a` and `b` replaces both; with fewer than two entries the stack is left as it was. -/
def Obligations.BinaryOperationsTakeLeftBelowRight : Prop :=
  ∀ (s : State) (i : Instr) (f : Int → Int → Int),
    ((i = .add ∧ f = fun a b => a + b) ∨ (i = .sub ∧ f = fun a b => a - b) ∨ (i = .mul ∧ f = fun a b => a * b) ∨
      (i = .div ∧ f = fun a b => Int.tdiv a b) ∨ (i = .cmp ∧ f = fun a b => if a < b then 1 else 0)) →
    (∀ (b a : Word) (rest : List Word), entries s.stk s.sp = b :: a :: rest → (i = .div → b ≠ 0) →
      ∃ t, exec i s = .next t ∧ entries t.stk t.sp = wrap32 (f a.toInt b.toInt) :: rest) ∧
    ((entries s.stk s.sp).length < 2 →
      ∃ t, exec i s = .next t ∧ t = s.faulted .stackUnderflow ∧ entries t.stk t.sp = entries s.stk s.sp)

/-- R116: the results of the family on the top two entries, in 32-bit modular arithmetic; the low 32 bits are the
same whether the entries are read signed or unsigned; only −2^31 by −1 overflows in DIV; CMP gives 0 or 1. -/
def Obligations.ArithmeticIsModular : Prop :=
  ∀ s : State, 2 ≤ s.sp →
    let a := s.stk.read (s.sp - 2)
    let b := s.stk.read (s.sp - 1)
    (∃ t, exec .add s = .next t ∧ t.top = a + b ∧ t.top.toNat = (a.toNat + b.toNat) % 2 ^ 32) ∧
    (∃ t, exec .sub s = .next t ∧ t.top = a - b ∧ (t.top.toNat : Int) = ((a.toNat : Int) - b.toNat) % 2 ^ 32) ∧
    (∃ t, exec .mul s = .next t ∧ t.top = a * b ∧ t.top.toNat = (a.toNat * b.toNat) % 2 ^ 32) ∧
    (b = 0 → exec .div s = .next (s.faulted .divByZero)) ∧
    (b ≠ 0 → ∃ t, exec .div s = .next t ∧
      (¬ (a.toInt = -2 ^ 31 ∧ b.toInt = -1) → t.top.toInt = Int.tdiv a.toInt b.toInt) ∧
      (a.toInt = -2 ^ 31 → b.toInt = -1 → t.top.toInt = -2 ^ 31)) ∧
    (∃ t, exec .cmp s = .next t ∧ (t.top = 1 ↔ a.toInt < b.toInt) ∧ (t.top = 0 ↔ ¬ a.toInt < b.toInt))

/-- R11: `wrap32(n)` is the unique integer of the signed 32-bit range congruent to `n` modulo 2^32, and `tdiv` is the
quotient truncated toward zero: it leaves a remainder smaller than the divisor, of the dividend's sign. -/
def Obligations.WrapAndTruncationAreAsDefined : Prop :=
  (∀ n v : Int, (-2 ^ 31 ≤ v ∧ v < 2 ^ 31 ∧ (v - n) % 2 ^ 32 = 0) ↔ v = (wrap32 n).toInt) ∧
  ∀ a b : Int, b ≠ 0 →
    (a - b * tdiv a b).natAbs < b.natAbs ∧ (a - b * tdiv a b = 0 ∨ (a - b * tdiv a b).sign = a.sign)

/-! ### Branches -/

/-- R130, with its corner cases: a jump to its own address changes nothing, and an out-of-range target faults at the
next fetch. -/
def Obligations.JmpSetsPc : Prop :=
  (∀ (t0 t1 t2 t3 : Byte) (rest : List Byte),
    decode OpcodeMap.hardware (0x09 :: t0 :: t1 :: t2 :: t3 :: rest) = .ok (.jmp (t3 ++ t2 ++ t1 ++ t0), rest)) ∧
  ∀ (target : Word) (s : State),
    exec (.jmp target) s = .next { s with pc := target } ∧ exec (.jmp s.pc) s = .next s ∧
    (s.run = true → s.config.codeCap ≤ target.toNat →
      step { s with pc := target } =
        .next { s with pc := target, run := false, err := true, cause := 8, faultPc := target })

/-- R131. -/
def Obligations.JzPopsAndJumpsOnZero : Prop :=
  (∀ (t0 t1 t2 t3 : Byte) (rest : List Byte),
    decode OpcodeMap.hardware (0x0A :: t0 :: t1 :: t2 :: t3 :: rest) = .ok (.jz (t3 ++ t2 ++ t1 ++ t0), rest)) ∧
  ∀ (target : Word) (s : State),
    (s.sp = 0 → exec (.jz target) s = .next (s.faulted .stackUnderflow)) ∧
    (s.sp ≠ 0 → s.stk.read (s.sp - 1) = 0 →
      exec (.jz target) s = .next { s with sp := s.sp - 1, pc := target }) ∧
    (s.sp ≠ 0 → s.stk.read (s.sp - 1) ≠ 0 →
      exec (.jz target) s = .next { s with sp := s.sp - 1, pc := s.pc + 5 })

/-- R132. -/
def Obligations.JnzPopsAndJumpsOnNonZero : Prop :=
  (∀ (t0 t1 t2 t3 : Byte) (rest : List Byte),
    decode OpcodeMap.hardware (0x0B :: t0 :: t1 :: t2 :: t3 :: rest) = .ok (.jnz (t3 ++ t2 ++ t1 ++ t0), rest)) ∧
  ∀ (target : Word) (s : State),
    (s.sp = 0 → exec (.jnz target) s = .next (s.faulted .stackUnderflow)) ∧
    (s.sp ≠ 0 → s.stk.read (s.sp - 1) ≠ 0 →
      exec (.jnz target) s = .next { s with sp := s.sp - 1, pc := target }) ∧
    (s.sp ≠ 0 → s.stk.read (s.sp - 1) = 0 →
      exec (.jnz target) s = .next { s with sp := s.sp - 1, pc := s.pc + 5 })

/-- R133: a jump, a taken conditional jump and a call store a target at or above `CODE_CAP` as it is, and the next
cycle faults with the target in `FAULT_PC`. -/
def Obligations.TargetsAreUnmaskedAndCheckedAtFetch : Prop :=
  ∀ (target : Word) (s : State) (i : Instr), s.run = true → s.config.codeCap ≤ target.toNat →
    (i = .jmp target ∨
      (i = .jz target ∧ s.sp ≠ 0 ∧ s.stk.read (s.sp - 1) = 0) ∨
      (i = .jnz target ∧ s.sp ≠ 0 ∧ s.stk.read (s.sp - 1) ≠ 0) ∨
      (i = .call target ∧ s.csp ≠ s.config.callCap)) →
    ∃ t u, exec i s = .next t ∧ t.pc = target ∧ t.run = true ∧ t.err = s.err ∧
      step t = .next u ∧ u = t.faulted .pcOutOfBounds ∧ u.faultPc = target

/-! ### The memory bank -/

/-- R140. The address stored to is what the translator of R56 gives. -/
def Obligations.StoreWritesOneWord : Prop :=
  (∀ (idx : Byte) (rest : List Byte), decode OpcodeMap.hardware (0x0C :: idx :: rest) = .ok (.store idx, rest)) ∧
  ∀ (idx : Byte) (s : State),
    (s.sp = 0 → exec (.store idx) s = .next (s.faulted .stackUnderflow)) ∧
    (s.sp ≠ 0 → s.config.memSize ≤ idx.toNat → exec (.store idx) s = .next (s.faulted .memOutOfBounds)) ∧
    (s.sp ≠ 0 → idx.toNat < s.config.memSize →
      ∃ i t, translate s.config idx = .ok i ∧ i = idx.toNat ∧ exec (.store idx) s = .next t ∧
        t = { s with sp := s.sp - 1, mem := t.mem, pc := s.pc + 2 } ∧
        t.memRead i = s.stk.read (s.sp - 1) ∧ ∀ k, k ≠ i → t.memRead k = s.memRead k)

/-- R141. -/
def Obligations.LoadPushesOneWord : Prop :=
  (∀ (idx : Byte) (rest : List Byte), decode OpcodeMap.hardware (0x0D :: idx :: rest) = .ok (.load idx, rest)) ∧
  (∀ (idx : Byte) (s : State),
    (s.sp = s.config.stackCap → exec (.load idx) s = .next (s.faulted .stackOverflow)) ∧
    (s.sp ≠ s.config.stackCap → s.config.memSize ≤ idx.toNat →
      exec (.load idx) s = .next (s.faulted .memOutOfBounds)) ∧
    (s.sp ≠ s.config.stackCap → idx.toNat < s.config.memSize →
      ∃ i t, translate s.config idx = .ok i ∧ i = idx.toNat ∧ exec (.load idx) s = .next t ∧
        WritesStackSlot s t s.sp (s.memRead i) (s.sp + 1) (s.pc + 2))) ∧
  ∀ (c : Config) (program : List Byte) (fresh : State), hostReset c program = .next fresh →
    ∀ i, fresh.memRead i = 0

/-- R56: the translator is the identity below `MEM_SIZE` and a fault from there on. -/
def Obligations.TranslatorIsABoundedIdentity : Prop :=
  ∀ (c : Config) (idx : Byte),
    (idx.toNat < c.memSize → translate c idx = .ok idx.toNat) ∧
    (c.memSize ≤ idx.toNat → translate c idx = .error .memOutOfBounds)

/-- R60: a LOAD that completes pushes the word of the last STORE to its index before it, whatever other instructions
ran between, or 0 if there was none since reset. -/
def Obligations.LoadReturnsTheLastStore : Prop :=
  ∀ (idx : Byte) (n : Nat) (t u : State), exec (.load idx) t = .next u → firstFault (.load idx) t = none →
    (∀ s s1 : State, fetch s = .ok (.store idx) → firstFault (.store idx) s = none → step s = .next s1 →
      StepsAvoiding (fun i => i = .store idx) n s1 t → u.top = s.top) ∧
    (∀ (c : Config) (program : List Byte) (s : State), hostReset c program = .next s →
      StepsAvoiding (fun i => i = .store idx) n s t → u.top = 0)

/-! ### Subroutines and HALT -/

/-- R150. -/
def Obligations.CallSavesNextAndJumps : Prop :=
  (∀ (t0 t1 t2 t3 : Byte) (rest : List Byte),
    decode OpcodeMap.hardware (0x0E :: t0 :: t1 :: t2 :: t3 :: rest) = .ok (.call (t3 ++ t2 ++ t1 ++ t0), rest)) ∧
  ∀ (target : Word) (s : State),
    (s.csp = s.config.callCap → exec (.call target) s = .next (s.faulted .callStackOverflow)) ∧
    (s.csp ≠ s.config.callCap →
      ∃ t, exec (.call target) s = .next t ∧
        t = { s with cstk := t.cstk, csp := s.csp + 1, pc := target } ∧
        t.cstk.read s.csp = s.pc + 5 ∧ (∀ k, k ≠ s.csp → t.cstk.read k = s.cstk.read k) ∧
        (s.run = true → s.config.codeCap ≤ target.toNat → step t = .next (t.faulted .pcOutOfBounds)))

/-- R151. -/
def Obligations.RetReturnsToTheSavedAddress : Prop :=
  (∀ rest : List Byte, decode OpcodeMap.hardware (0x0F :: rest) = .ok (.ret, rest)) ∧
  ∀ s : State,
    (s.csp = 0 → exec .ret s = .next (s.faulted .callStackUnderflow)) ∧
    (s.csp ≠ 0 → ∃ t, exec .ret s = .next t ∧ t = { s with csp := s.csp - 1, pc := s.cstk.read (s.csp - 1) } ∧
      (s.run = true → s.config.codeCap ≤ t.pc.toNat → step t = .next (t.faulted .pcOutOfBounds)))

/-- R34: no instruction but CALL and RET writes the call stack, and none of them depends on what it holds. -/
def Obligations.OnlyCallAndRetUseTheCallStack : Prop :=
  ∀ (i : Instr) (s t : State), (∀ target, i ≠ .call target) → i ≠ .ret → exec i s = .next t →
    t.csp = s.csp ∧ (∀ k, t.cstk.read k = s.cstk.read k) ∧
    ∀ (calls : Memory 32) (depth : Nat),
      exec i { s with cstk := calls, csp := depth } = .next { t with cstk := calls, csp := depth }

/-- R160: HALT's effect, the state it leaves for the host, no step after it, and no other way for a run to end without
a fault. -/
def Obligations.HaltEndsTheRunCleanly : Prop :=
  (∀ rest : List Byte, decode OpcodeMap.hardware (0x10 :: rest) = .ok (.halt, rest)) ∧
  (∀ s : State, ∃ t, exec .halt s = .next t ∧ t = { s with run := false, pc := s.pc + 1 } ∧
    (∀ u, step t ≠ .next u) ∧
    (s.err = false → s.sp = 0 → t.runStatus = .clean none) ∧
    (s.err = false → 0 < s.sp → t.runStatus = .clean (some (s.stk.read (s.sp - 1))))) ∧
  ∀ s t : State, step s = .next t → t.run = false → t.err = false → fetch s = .ok .halt

/-! ### Faults -/

/-- R176, of a cycle that raises any cause: four registers written, all else as before the cycle, and no step after
it. -/
def Obligations.FaultEntryWritesFourRegisters : Prop :=
  ∀ (c : Cause) (s : State),
    raise c s = .next { s with run := false, err := true, cause := c.code, faultPc := s.pc } ∧
    ∀ u, step (s.faulted c) ≠ .next u

/-- R171, R176: a step that raises a fault has done nothing else, and stops the core. -/
def Obligations.FaultsArePrecise : Prop :=
  ∀ s t : State, s.err = false → step s = .next t → t.err = true →
    (∃ c : Cause, t = { s with run := false, err := true, cause := c.code, faultPc := s.pc }) ∧ ∀ u, step t ≠ .next u

/-- R170: which cause a faulting step records, what raised it, and under what condition. -/
def Obligations.FaultCausesAreAsTabled : Prop :=
  ∀ s t : State, s.err = false → step s = .next t → t.err = true →
    (t.cause = 1 ∧ s.sp = s.config.stackCap ∧
      ((∃ imm, fetch s = .ok (.push imm)) ∨ fetch s = .ok .dup ∨ ∃ idx, fetch s = .ok (.load idx))) ∨
    (t.cause = 2 ∧ s.sp = 0 ∧
      (fetch s = .ok .pop ∨ fetch s = .ok .dup ∨ (∃ target, fetch s = .ok (.jz target)) ∨
        (∃ target, fetch s = .ok (.jnz target)) ∨ ∃ idx, fetch s = .ok (.store idx))) ∨
    (t.cause = 2 ∧ s.sp < 2 ∧
      (fetch s = .ok .add ∨ fetch s = .ok .sub ∨ fetch s = .ok .mul ∨ fetch s = .ok .div ∨ fetch s = .ok .cmp)) ∨
    (t.cause = 3 ∧ s.csp = s.config.callCap ∧ ∃ target, fetch s = .ok (.call target)) ∨
    (t.cause = 4 ∧ s.csp = 0 ∧ fetch s = .ok .ret) ∨
    (t.cause = 5 ∧ ∃ idx, s.config.memSize ≤ idx.toNat ∧ (fetch s = .ok (.store idx) ∨ fetch s = .ok (.load idx))) ∨
    (t.cause = 6 ∧ s.stk.read (s.sp - 1) = 0 ∧ fetch s = .ok .div) ∨
    (t.cause = 7 ∧ s.pc.toNat < s.config.codeCap ∧ s.config.opcodes.opcodeOf (s.codeByte s.pc.toNat) = none) ∨
    (t.cause = 8 ∧ (s.config.codeCap ≤ s.pc.toNat ∨
      ∃ o, s.config.opcodes.opcodeOf (s.codeByte s.pc.toNat) = some o ∧ s.config.codeCap < s.pc.toNat + o.length))

/-- R178: the order of the checks of a cycle, the instruction's own ones in the order of the rule's table; a cycle
with no failing check records no fault. -/
def Obligations.ChecksAreMadeInOrder : Prop :=
  (∀ s : State, s.run = true →
    (s.config.codeCap ≤ s.pc.toNat → step s = .next (s.faulted .pcOutOfBounds)) ∧
    (s.pc.toNat < s.config.codeCap → s.config.opcodes.opcodeOf (s.codeByte s.pc.toNat) = none →
      step s = .next (s.faulted .invalidOpcode)) ∧
    ∀ o, s.pc.toNat < s.config.codeCap → s.config.opcodes.opcodeOf (s.codeByte s.pc.toNat) = some o →
      (s.config.codeCap < s.pc.toNat + o.length → step s = .next (s.faulted .pcOutOfBounds)) ∧
      (s.pc.toNat + o.length ≤ s.config.codeCap → ∃ i : Instr, i.op = o ∧ fetch s = .ok i ∧ step s = exec i s)) ∧
  ∀ (i : Instr) (s : State),
    (∀ c, firstFault i s = some c → exec i s = .next (s.faulted c)) ∧
    (firstFault i s = none →
      ∃ t, exec i s = .next t ∧ t.err = s.err ∧ t.cause = s.cause ∧ t.faultPc = s.faultPc)

/-- R33: HALT and the fault mechanism are the only writers of `RUN`, `ERR`, `CAUSE` and `FAULT_PC`, and no instruction
reads them. -/
def Obligations.ProgramsCannotReachTheStatusRegisters : Prop :=
  ∀ (i : Instr) (s : State),
    (∀ c, firstFault i s = some c →
      exec i s = .next { s with run := false, err := true, cause := c.code, faultPc := s.pc }) ∧
    (firstFault i s = none → ∀ t, exec i s = .next t →
      t.err = s.err ∧ t.cause = s.cause ∧ t.faultPc = s.faultPc ∧ (i ≠ .halt → t.run = s.run) ∧
      ∀ (run err : Bool) (cause : BitVec 4) (faultPc : Word),
        exec i { s with run := run, err := err, cause := cause, faultPc := faultPc } =
          .next { t with run := if i = .halt then false else run, err := err, cause := cause, faultPc := faultPc })

/-! ### The cycle -/

/-- R81: when the bytes at `PC` decode to `i`, a step of a running core is `exec` of `i` (the default `PC <- next` is
in each meaning). -/
def Obligations.StepRunsTheDecodedInstruction : Prop :=
  ∀ (s : State) (i : Instr) (rest : List Byte), s.run = true → s.pc.toNat < s.config.codeCap →
    decode s.config.opcodes (s.codeBytes s.pc.toNat (min 5 (s.config.codeCap - s.pc.toNat))) = .ok (i, rest) →
    step s = exec i s

/-- The same from the encoder's side: the encoding of `i` in the code buffer at `PC` makes the step run `i`. -/
def Obligations.StepRunsTheEncodedInstruction : Prop :=
  ∀ (s : State) (i : Instr), s.config.opcodes.wf = true → s.run = true →
    s.pc.toNat + i.length ≤ s.config.codeCap → s.codeBytes s.pc.toNat i.length = encode s.config.opcodes i →
    step s = exec i s

/-- R81, word for word: the cycle as the rule writes it is the step, and a core with `RUN` = 0 has none. -/
def Obligations.StepIsTheWrittenCycle : Prop :=
  ∀ s : State, (s.run = true → step s = cycleAsWritten s) ∧ (s.run = false → ∀ t, step s ≠ .next t)

/-- R77: a running core always has a next state, and a core with `RUN` = 0 has none. -/
def Obligations.OnlyARunningCoreSteps : Prop :=
  ∀ s : State, (s.run = true → ∃ t, step s = .next t) ∧ (s.run = false → ∀ t, step s ≠ .next t)

/-- The model's own names for having no step (log entry 4): by `ERR`, halted or halted on error. -/
def Obligations.StoppedCoresAnswerByName : Prop :=
  ∀ s : State, s.run = false →
    (s.err = false → step s = .fault .halted) ∧ (s.err = true → step s = .fault .haltedOnError)

/-- R26: after an instruction `PC` holds the target it writes, or else `next` as an integer; a fault leaves `PC` as it
was. -/
def Obligations.PcHoldsTargetOrNext : Prop :=
  ∀ (s t : State) (i : Instr), s.config.wf = true → fetch s = .ok i → exec i s = .next t →
    (∀ c, firstFault i s = some c → t.pc = s.pc) ∧
    (firstFault i s = none → ∀ target, targetOf i s = some target → t.pc = target) ∧
    (firstFault i s = none → targetOf i s = none → t.pc.toNat = s.pc.toNat + 1 + i.op.format.width)

/-- R207 and the corner case of R130: a JMP to its own address runs forever and changes nothing. -/
def Obligations.SelfJumpRunsForever : Prop :=
  ∀ (s : State) (n : Nat), s.run = true → fetch s = .ok (.jmp s.pc) →
    StepsAvoiding (fun _ => False) n s s ∧ runUnder n s = s ∧ (runUnder n s).runStatus = .running

/-! ### Frames -/

/-- Of the spec's own inference R62 (20_memory.md section 7): no step writes the code buffer, nor the parameters. -/
def Obligations.CodeIsNeverWritten : Prop :=
  ∀ s t : State, step s = .next t → (∀ a, t.codeByte a = s.codeByte a) ∧ t.code = s.code ∧ t.config = s.config

/-- The memory frame of every instruction: STORE writes the word its translator names and no other; no other
instruction writes any. -/
def Obligations.OnlyStoreWritesMemory : Prop :=
  ∀ (i : Instr) (s t : State), exec i s = .next t →
    ((∀ idx, i ≠ .store idx) → ∀ a, t.memRead a = s.memRead a) ∧
    (∀ idx a, i = .store idx → translate s.config idx = .ok a → ∀ k, k ≠ a → t.memRead k = s.memRead k) ∧
    (∀ idx c, i = .store idx → translate s.config idx = .error c → ∀ k, t.memRead k = s.memRead k)

/-- The table of the spec's own inference R39 (10_state.md section 10), for an instruction that completes: what it pops
and pushes, the one slot a push writes, and which other state it may write. -/
def Obligations.InstructionsTouchOnlyTheTabledState : Prop :=
  ∀ (i : Instr) (s t : State), firstFault i s = none → exec i s = .next t →
    t.sp + popCount i = s.sp + pushCount i ∧
    (∀ k, (pushCount i = 0 ∨ k ≠ s.sp - popCount i) → t.stk.read k = s.stk.read k) ∧
    (∀ k, k < s.sp - popCount i → t.stk.read k = s.stk.read k) ∧
    ((∀ idx, i ≠ .store idx) → t.mem = s.mem) ∧
    ((∀ target, i ≠ .call target) → i ≠ .ret → t.cstk = s.cstk ∧ t.csp = s.csp) ∧
    (∀ target, i = .call target → t.csp = s.csp + 1) ∧ (i = .ret → t.csp + 1 = s.csp) ∧
    (t.run = if i = .halt then false else s.run) ∧
    t.code = s.code ∧ t.config = s.config ∧ t.err = s.err ∧ t.cause = s.cause ∧ t.faultPc = s.faultPc

/-- Of the spec's own inference R24 and of R34: two states that differ only in stack slots at or above the pointers
take steps of one kind to states that differ only there, and show the host the same outputs (R205). -/
def Obligations.StaleSlotsAreUnobservable : Prop :=
  ∀ s t : State, s.SameVisible t →
    SameOutcome (step s) (step t) ∧ s.outputs = t.outputs

/-- Decision D21: with its stacks as sequences in place of arrays with pointers, the core takes the same steps. -/
def Obligations.ArrayStacksRefineSequences : Prop :=
  ∀ s : State, s.run = true →
    ∃ t, step s = .next t ∧
      (∀ i, fetch s = .ok i → t.seq = seqExec i s.seq) ∧
      (∀ c, fetch s = .error c → t.seq = s.seq.faulted c)

/-! ### Encoding -/

/-- R72, R74: under every well-formed opcode map, decoding an encoded instruction gives it back with the bytes after
it. -/
def Obligations.DecodeInvertsEncode : Prop :=
  ∀ (m : OpcodeMap) (i : Instr) (rest : List Byte), m.wf = true → decode m (encode m i ++ rest) = .ok (i, rest)

/-- The other direction: what decodes is the encoding of what it decodes to. -/
def Obligations.EncodeInvertsDecode : Prop :=
  ∀ (m : OpcodeMap) (bytes rest : List Byte) (i : Instr), decode m bytes = .ok (i, rest) → bytes = encode m i ++ rest

/-- R70: a program is the encodings of its instructions in order, with nothing between; decoding it from its start
gives them back, and any run of leading instructions is itself a program. -/
def Obligations.ProgramsDecodeToTheirInstructions : Prop :=
  ∀ (m : OpcodeMap) (is js : List Instr), m.wf = true →
    decodeProgram m (encodeProgram m (is ++ js)) = .ok (is ++ js) ∧
    encodeProgram m is <+: encodeProgram m (is ++ js) ∧ decodeProgram m (encodeProgram m is) = .ok is

/-- Words written out from R72 to R74, one or more of each format. -/
def Obligations.WrittenWordsDecode : Prop :=
  decode OpcodeMap.hardware [0x01, 0x00, 0x00, 0x00, 0x80] = .ok (.push 0x80000000, []) ∧
  decode OpcodeMap.hardware [0x09, 0x0C, 0x00, 0x00, 0x00] = .ok (.jmp 12, []) ∧
  decode OpcodeMap.hardware [0x0C, 0x03] = .ok (.store 3, []) ∧
  decode OpcodeMap.hardware [0x0D, 0xFF] = .ok (.load 255, []) ∧
  decode OpcodeMap.hardware [0x07] = .ok (.div, []) ∧
  decode OpcodeMap.hardware [0x10] = .ok (.halt, [])

/-- R76: exactly 0x00 and 0x11 to 0xFF are invalid, no value of an operand is, and fetching an invalid byte faults. -/
def Obligations.OtherOpcodeBytesAreInvalid : Prop :=
  (∀ (b : Byte) (rest : List Byte),
    decode OpcodeMap.hardware (b :: rest) = .error (.invalidOpcode b) ↔ b = 0x00 ∨ 0x11 ≤ b.toNat) ∧
  (∀ (b : Byte) (o : Op) (operand : List Byte), OpcodeMap.hardware.opcodeOf b = some o →
    operand.length = o.format.width → ∃ i : Instr, i.op = o ∧ decode OpcodeMap.hardware (b :: operand) = .ok (i, [])) ∧
  ∀ s : State, s.run = true → s.config.opcodes = OpcodeMap.hardware → s.pc.toNat < s.config.codeCap →
    (s.codeByte s.pc.toNat = 0x00 ∨ 0x11 ≤ (s.codeByte s.pc.toNat).toNat) →
    step s = .next (s.faulted .invalidOpcode)

/-- R75 and R71: the operand widths, and a decoder that takes exactly the opcode byte and that many bytes. -/
def Obligations.OperandWidthsAreFixedByTheOpcode : Prop :=
  (∀ o : Op, o.format.width =
    if o = .push ∨ o = .jmp ∨ o = .jz ∨ o = .jnz ∨ o = .call then 4 else if o = .store ∨ o = .load then 1 else 0) ∧
  ∀ (m : OpcodeMap) (b : Byte) (bytes rest : List Byte) (i : Instr), decode m (b :: bytes) = .ok (i, rest) →
    m.opcodeOf b = some i.op ∧ bytes.length = i.op.format.width + rest.length ∧
    (i.length = 1 ∨ i.length = 2 ∨ i.length = 5)

/-- R51: a 4-byte operand is little-endian, its value the two's-complement reading of the pattern. -/
def Obligations.WordOperandsAreLittleEndian : Prop :=
  ∀ b0 b1 b2 b3 : Byte,
    (wordOfBytes b0 b1 b2 b3).toNat = b0.toNat + 2 ^ 8 * b1.toNat + 2 ^ 16 * b2.toNat + 2 ^ 24 * b3.toNat ∧
    ((wordOfBytes b0 b1 b2 b3).toInt < 0 ↔ 128 ≤ b3.toNat) ∧
    bytesOfWord (wordOfBytes b0 b1 b2 b3) = [b0, b1, b2, b3] ∧
    ∀ rest : List Byte,
      decode OpcodeMap.hardware (0x01 :: b0 :: b1 :: b2 :: b3 :: rest) = .ok (.push (wordOfBytes b0 b1 b2 b3), rest) ∧
      decode OpcodeMap.hardware (0x09 :: b0 :: b1 :: b2 :: b3 :: rest) = .ok (.jmp (wordOfBytes b0 b1 b2 b3), rest) ∧
      decode OpcodeMap.hardware (0x0A :: b0 :: b1 :: b2 :: b3 :: rest) = .ok (.jz (wordOfBytes b0 b1 b2 b3), rest) ∧
      decode OpcodeMap.hardware (0x0B :: b0 :: b1 :: b2 :: b3 :: rest) = .ok (.jnz (wordOfBytes b0 b1 b2 b3), rest) ∧
      decode OpcodeMap.hardware (0x0E :: b0 :: b1 :: b2 :: b3 :: rest) = .ok (.call (wordOfBytes b0 b1 b2 b3), rest)

/-- A word of the opcode table placed at the reset state's `PC` is the instruction the next step runs (log entry 5). -/
def Obligations.PlacedTableWordRuns : Prop :=
  ∀ (nbits w : Nat) (i : Instr), decodeTableWord nbits w = some i →
    step (State.reset.withFetchWord nbits w) = exec i (State.reset.withFetchWord nbits w)

/-! ### Reset, the host and the invariant -/

/-- R200, R38: reset with a program that fits sets every piece of state, the program at address 0 and zeros after
it. -/
def Obligations.ResetSetsEveryPieceOfState : Prop :=
  ∀ (c : Config) (program : List Byte), program.length ≤ c.codeCap →
    ∃ s, hostReset c program = .next s ∧ s.config = c ∧
      (∀ a, (h : a < program.length) → s.codeByte a = program[a]) ∧
      (∀ a, program.length ≤ a → s.codeByte a = 0) ∧
      s.pc = 0 ∧ (∀ k, s.stk.read k = 0) ∧ s.sp = 0 ∧ (∀ k, s.cstk.read k = 0) ∧ s.csp = 0 ∧
      (∀ k, s.memRead k = 0) ∧ s.run = true ∧ s.err = false ∧ s.cause = 0 ∧ s.faultPc = 0

/-- R202: a program longer than `CODE_CAP` is refused (the name of the refusal is log entry 9), and R201: the empty
program is legal and its first step faults INVALID_OPCODE at address 0 (the spec's own inference). -/
def Obligations.ProgramLengthLimits : Prop :=
  (∀ (c : Config) (program : List Byte), c.codeCap < program.length →
    hostReset c program = .refused .programTooLong) ∧
  ∀ c : Config, c.wf = true →
    ∃ s t, hostReset c [] = .next s ∧ step s = .next t ∧ t.err = true ∧ t.cause = 7 ∧ t.faultPc = 0

/-- The invariant holds at reset (R38). -/
def Obligations.ResetMeetsTheInvariant : Prop := State.reset.Inv

/-- The invariant holds after every reset of a core with parameters that R7 allows, whatever the program. -/
def Obligations.EveryResetMeetsTheInvariant : Prop :=
  ∀ (c : Config) (program : List Byte) (s : State), c.wf = true → hostReset c program = .next s → s.Inv

/-- R7, R23, R30, R31, R34 and the spec's own inference R35: every step keeps the invariant. -/
def Obligations.EveryStepKeepsTheInvariant : Prop :=
  ∀ s t : State, s.Inv → step s = .next t → t.Inv

/-- R33: the layout of the status word. -/
def Obligations.StatusWordLayout : Prop :=
  ∀ s : State, s.statusWord.getLsbD 0 = s.run ∧ s.statusWord.getLsbD 1 = s.err ∧
    s.statusWord.extractLsb' 2 4 = s.cause ∧ s.statusWord.extractLsb' 6 2 = 0 ∧
    s.statusWord.toNat = 4 * s.cause.toNat + 2 * s.err.toNat + s.run.toNat

/-- 70_reset_and_hazards.md section 3 and 45_system.md: the end of a run and the halt report. That the outputs are one
tuple and that `result` is `none` when `result_valid` is 0, where the spec gives it no meaning, is the model's choice
(log entry 12). -/
def Obligations.RunEndAndHaltReport : Prop :=
  ∀ s : State,
    s.outputs = ⟨s.statusWord, s.faultPc, s.resultValid, s.result⟩ ∧
    (s.run = true → s.runStatus = .running) ∧
    (s.run = false → s.err = true → s.runStatus = .onError s.cause s.faultPc) ∧
    (s.run = false → s.err = false → s.sp = 0 → s.runStatus = .clean none ∧ s.resultValid = false ∧ s.result = none) ∧
    (s.run = false → s.err = false → 0 < s.sp →
      s.runStatus = .clean (some (s.stk.read (s.sp - 1))) ∧ s.resultValid = true ∧
        s.result = some (s.stk.read (s.sp - 1)))

/-- Decision D16 on R208: a run under a ceiling can be cut anywhere, a core that the ceiling stops is still running,
and one that ended stays as it ended. -/
def Obligations.CeilingIsNoHaltAndNoFault : Prop :=
  (∀ (n k : Nat) (s : State), runUnder (n + k) s = runUnder k (runUnder n s)) ∧
  (∀ (n k : Nat) (s : State), (runUnder n s).run = false → runUnder (n + k) s = runUnder n s) ∧
  ∀ (n : Nat) (s t : State), StepsAvoiding (fun _ => False) n s t → runUnder n s = t

/-! ### The assembler's contract -/

/-- R85: what a literal becomes, and the output as the concatenation of the instructions. -/
def Obligations.LiteralsEncodeAsOperands : Prop :=
  (∀ (literal : Token) (n : Int), parseLiteral literal = some n →
    ∃ b : Byte, (b.toNat : Int) = n % 256 ∧
      parseTokens [mnemonic .store, literal] = .ok [.store b] ∧ parseTokens [mnemonic .load, literal] = .ok [.load b] ∧
      ∀ m : OpcodeMap, encodeProgram m [.store b, .load b] = [m.store, b, m.load, b]) ∧
  (∀ (literal : Token) (n : Int), parseLiteral literal = some n → -2 ^ 31 ≤ n → n < 2 ^ 31 →
    ∃ w : Word, w.toInt = n ∧ parseTokens [mnemonic .push, literal] = .ok [.push w] ∧
      parseTokens [mnemonic .jmp, literal] = .ok [.jmp w] ∧ parseTokens [mnemonic .jz, literal] = .ok [.jz w] ∧
      parseTokens [mnemonic .jnz, literal] = .ok [.jnz w] ∧ parseTokens [mnemonic .call, literal] = .ok [.call w] ∧
      ∀ m : OpcodeMap, encodeProgram m [.push w] =
        [m.push, w.extractLsb' 0 8, w.extractLsb' 8 8, w.extractLsb' 16 8, w.extractLsb' 24 8] ∧
        (encodeProgram m [.push w]).tail = bytesOfWord w ∧ (encodeProgram m [.jmp w]).tail = bytesOfWord w ∧
        (encodeProgram m [.jz w]).tail = bytesOfWord w ∧ (encodeProgram m [.jnz w]).tail = bytesOfWord w ∧
        (encodeProgram m [.call w]).tail = bytesOfWord w) ∧
  (∀ (m : OpcodeMap) (i : Instr), (encode m i).length = 1 + i.op.format.width ∧ (encode m i).head? = some (m.byteOf i.op)) ∧
  ∀ (m : OpcodeMap) (is js : List Instr), encodeProgram m (is ++ js) = encodeProgram m is ++ encodeProgram m js

/-- 30_encoding.md section 6, R86 but for its last sentence: the errors that end assembly, with no part of the output
kept. The literals are those of decision D17. The names of the three errors, the first error being the one answered,
and a mnemonic in an operand's place being a malformed operand are the model's (log entry 14). -/
def Obligations.AssemblyErrorsAreFatal : Prop :=
  ∀ (items : List (Instr × Token)) (token : Token) (rest : List Token),
    (∀ item ∈ items, SpellsOperand item.1 item.2) →
    let before := items.flatMap fun item => sourceTokens item.1 item.2
    (opOfMnemonic token = none → parseTokens (before ++ token :: rest) = .error (.unrecognizedMnemonic token)) ∧
    (∀ n, parseLiteral token = some n → opOfMnemonic token = none) ∧
    (∀ o : Op, o.format ≠ .n → parseTokens (before ++ [mnemonic o]) = .error (.missingOperand o)) ∧
    (∀ o : Op, o.format ≠ .n → parseLiteral token = none →
      parseTokens (before ++ mnemonic o :: token :: rest) = .error (.malformedOperand token)) ∧
    (∀ (o : Op) (n : Int), o.format = .i32 → parseLiteral token = some n → n < -2 ^ 31 ∨ 2 ^ 31 ≤ n →
      parseTokens (before ++ mnemonic o :: token :: rest) = .error (.malformedOperand token))

/-- R84, R85: a text that spells a sequence of instructions, each token followed by a space (log entry 13), assembles
to the encoding of that sequence. -/
def Obligations.SpelledProgramsAssemble : Prop :=
  ∀ (m : OpcodeMap) (items : List (Instr × Token)),
    (∀ item ∈ items, SpellsOperand item.1 item.2) →
    assemble m ((items.flatMap fun item => sourceTokens item.1 item.2).flatMap fun token => token ++ [' ']) =
      .ok (encodeProgram m (items.map (·.1)))
end

