-- ==== Sys2Proof/Laws/Arithmetic.lean ====
section
/-! SUPPORT. The spec's narrowing and division beside the library's. -/

namespace Sys2Proof.Machine

theorem toInt_wrap32 (n : Int) : (wrap32 n).toInt = n.bmod (2 ^ 32) := by
  simp [wrap32, BitVec.toInt_ofInt]

/-- R11's `tdiv` is the library's division truncated toward zero. -/
theorem tdiv_eq (a b : Int) : tdiv a b = Int.tdiv a b := by
  have pos (k : Nat) : |(k : Int) + 1| = k + 1 := abs_of_nonneg (by omega)
  rcases a with (_ | m) | m <;> rcases b with (_ | n) | n
  all_goals first | (simp [tdiv]; done) | skip
  · rw [tdiv, Int.sign_eq_one_of_pos (by simp), Int.sign_eq_one_of_pos (by simp)]
    simp [pos, Int.tdiv_eq_ediv_of_nonneg (show (0 : Int) ≤ (m : Int) + 1 by omega)]
  · rw [tdiv, Int.sign_eq_one_of_pos (by simp)]
    simp [Int.tdiv, pos]
  · rw [tdiv, Int.sign_eq_one_of_pos (a := Int.ofNat (n + 1)) (by simp)]
    simp [Int.tdiv, pos]
  · simp [tdiv, Int.tdiv]

end Sys2Proof.Machine
end

