-- ==== Sys2Proof/Laws/Decode.lean ====
section
/-! SUPPORT. Small laws of the opcode map, the operand bytes and the operand readers. -/

namespace Sys2Proof

theorem Op.mem_all (o : Op) : o ∈ Op.all := by cases o <;> decide

theorem OpcodeMap.byteOf_of_opcodeOf {m : OpcodeMap} {b : Byte} {o : Op} (h : m.opcodeOf b = some o) :
    m.byteOf o = b := by
  simpa using List.find?_some h

theorem OpcodeMap.opcodeOf_none {m : OpcodeMap} {b : Byte} (h : m.opcodeOf b = none) (o : Op) : m.byteOf o ≠ b := by
  intro e
  have := List.find?_eq_none.1 h o o.mem_all
  simp [e] at this

/-- A well-formed map gives each opcode a byte of its own. -/
theorem OpcodeMap.byteOf_injective {m : OpcodeMap} (h : m.wf = true) {o p : Op} (e : m.byteOf o = m.byteOf p) :
    o = p := by
  simp only [OpcodeMap.wf, Bool.and_eq_true, decide_eq_true_eq] at h
  exact List.inj_on_of_nodup_map h.1 o.mem_all p.mem_all e

/-- Under a well-formed map the byte of an opcode is that opcode's. -/
theorem OpcodeMap.opcodeOf_byteOf {m : OpcodeMap} (h : m.wf = true) (o : Op) : m.opcodeOf (m.byteOf o) = some o := by
  cases e : m.opcodeOf (m.byteOf o) with
  | none => exact absurd rfl (OpcodeMap.opcodeOf_none e o)
  | some p => rw [OpcodeMap.byteOf_injective h (OpcodeMap.byteOf_of_opcodeOf e)]

theorem OpcodeMap.opcodeOf_zero {m : OpcodeMap} (h : m.wf = true) : m.opcodeOf 0 = none := by
  cases e : m.opcodeOf 0 with
  | none => rfl
  | some o =>
    simp only [OpcodeMap.wf, Bool.and_eq_true, List.all_eq_true] at h
    have := h.2 o o.mem_all
    simp [OpcodeMap.byteOf_of_opcodeOf e] at this

theorem OpcodeMap.hardware_wf : OpcodeMap.hardware.wf = true := by decide

theorem Config.hardware_wf : Config.hardware.wf = true := by decide

@[simp] theorem length_bytesOfWord (w : Word) : (bytesOfWord w).length = 4 := rfl

/-- The four bytes of a word, read back, are the word. -/
theorem wordOfBytes_bytesOfWord (w : Word) :
    wordOfBytes (w.extractLsb' 0 8) (w.extractLsb' 8 8) (w.extractLsb' 16 8) (w.extractLsb' 24 8) = w := by
  refine BitVec.eq_of_getLsbD_eq fun k hk => ?_
  simp only [wordOfBytes, BitVec.getLsbD_append, BitVec.getLsbD_extractLsb']
  by_cases h1 : k < 8
  · simp [h1]
  by_cases h2 : k < 16
  · simp [h1, show k - 8 < 8 by omega, show 8 + (k - 8) = k by omega]
  by_cases h3 : k < 24
  · simp [h1, show ¬ k - 8 < 8 by omega, show k - 8 - 8 < 8 by omega, show 16 + (k - 8 - 8) = k by omega]
  · simp [h1, show ¬ k - 8 < 8 by omega, show ¬ k - 8 - 8 < 8 by omega, show k - 8 - 8 - 8 < 8 by omega,
      show 24 + (k - 8 - 8 - 8) = k by omega]

theorem length_operandBytes (i : Instr) : (operandBytes i).length = i.op.format.width := by cases i <;> rfl

theorem length_encode (m : OpcodeMap) (i : Instr) : (encode m i).length = i.length := by
  simp [encode, length_operandBytes, Instr.length, Op.length, Nat.add_comm]

theorem Op.length_pos (o : Op) : 1 ≤ o.length := by simp [Op.length]

theorem Op.length_le (o : Op) : o.length ≤ maxLength := by cases o <;> decide

namespace Machine

@[simp] theorem State.length_codeBytes (s : State) (a n : Nat) : (s.codeBytes a n).length = n := by
  simp [State.codeBytes]

theorem State.codeBytes_succ (s : State) (a n : Nat) :
    s.codeBytes a (n + 1) = s.codeByte a :: s.codeBytes (a + 1) n := by
  simp only [State.codeBytes, List.range_succ_eq_map, List.map_cons, List.map_map, Nat.add_zero]
  congr 1
  refine List.map_congr_left fun k _ => ?_
  simp only [Function.comp_apply]
  congr 1
  omega

end Machine

end Sys2Proof
end

