-- ==== Sys2Proof/Laws/Memory.lean ====
section
/-! SUPPORT. The laws of the array operations: a cell reads back what was written to it, every other cell is left
alone, the canonical form is kept, and in it equal contents are equal data. -/

namespace Sys2Proof.Machine

variable {w : Nat}

/-! ### Reading -/

@[simp] theorem Memory.read_nil (a : Nat) : Memory.read ([] : Memory w) a = 0 := rfl

theorem Memory.read_cons (b : Nat) (u : BitVec w) (m : Memory w) (a : Nat) :
    Memory.read ((b, u) :: m : Memory w) a = if b = a then u else m.read a := rfl

theorem Memory.read_delist (m : Memory w) (a b : Nat) :
    (m.delist a).read b = if a = b then 0 else m.read b := by
  induction m with
  | nil => simp [Memory.delist]
  | cons cell rest ih =>
    obtain ⟨c, u⟩ := cell
    by_cases hca : c = a
    · subst hca
      simp only [Memory.delist, if_true, ih, Memory.read_cons]
      split <;> simp_all
    · simp only [Memory.delist, if_neg hca, Memory.read_cons, ih]
      by_cases hcb : c = b
      · have hab : a ≠ b := fun h => hca (hcb.trans h.symm)
        simp [hcb, hab]
      · simp [hcb]

theorem Memory.read_enlist (m : Memory w) (a b : Nat) (v : BitVec w) (absent : ∀ cell ∈ m, cell.1 ≠ a) :
    (m.enlist a v).read b = if a = b then v else m.read b := by
  induction m with
  | nil => simp [Memory.enlist, Memory.read_cons]
  | cons cell rest ih =>
    obtain ⟨c, u⟩ := cell
    have hca : c ≠ a := absent (c, u) (by simp)
    have ih' := ih (fun cell h => absent cell (by simp [h]))
    by_cases hlt : a < c
    · simp [Memory.enlist, hlt, Memory.read_cons]
    · simp only [Memory.enlist, if_neg hlt, Memory.read_cons, ih']
      by_cases hcb : c = b
      · have hab : a ≠ b := fun h => hca (hcb.trans h.symm)
        simp [hcb, hab]
      · simp [hcb]

theorem Memory.not_mem_delist (m : Memory w) (a : Nat) : ∀ cell ∈ m.delist a, cell.1 ≠ a := by
  induction m with
  | nil => simp [Memory.delist]
  | cons cell rest ih =>
    obtain ⟨c, u⟩ := cell
    by_cases hca : c = a
    · simpa [Memory.delist, hca] using ih
    · intro x hx
      simp only [Memory.delist, if_neg hca, List.mem_cons] at hx
      rcases hx with rfl | hx
      · exact hca
      · exact ih x hx

/-- What every cell reads after a write. -/
theorem Memory.read_write (m : Memory w) (a b : Nat) (v : BitVec w) :
    (m.write a v).read b = if a = b then v else m.read b := by
  unfold Memory.write
  split
  · next hv => rw [Memory.read_delist]; simp [hv, Memory.unlisted]
  · rw [Memory.read_enlist _ _ _ _ (m.not_mem_delist a), Memory.read_delist]
    split <;> rfl

@[simp] theorem Memory.read_write_same (m : Memory w) (a : Nat) (v : BitVec w) : (m.write a v).read a = v := by
  simp [Memory.read_write]

theorem Memory.read_write_other (m : Memory w) {a b : Nat} (v : BitVec w) (h : b ≠ a) :
    (m.write a v).read b = m.read b := by
  simp [Memory.read_write, h.symm]

/-! ### The canonical form -/

theorem Memory.wfFrom_cons {cap low a : Nat} {v : BitVec w} {m : Memory w} :
    Memory.wfFrom cap low ((a, v) :: m : Memory w) = true ↔
      low ≤ a ∧ a < cap ∧ v ≠ 0 ∧ Memory.wfFrom cap (a + 1) m = true := by
  simp only [Memory.wfFrom, Bool.and_eq_true, decide_eq_true_eq, and_assoc]
  rfl

theorem Memory.wfFrom_mono {cap low high : Nat} {m : Memory w} (h : Memory.wfFrom cap high m = true)
    (le : low ≤ high) : Memory.wfFrom cap low m = true := by
  cases m with
  | nil => rfl
  | cons cell rest =>
    obtain ⟨a, v⟩ := cell
    rw [Memory.wfFrom_cons] at h ⊢
    exact ⟨le.trans h.1, h.2⟩

theorem Memory.wfFrom_delist {cap low : Nat} {m : Memory w} (h : Memory.wfFrom cap low m = true) (a : Nat) :
    Memory.wfFrom cap low (m.delist a) = true := by
  induction m generalizing low with
  | nil => rfl
  | cons cell rest ih =>
    obtain ⟨b, u⟩ := cell
    rw [Memory.wfFrom_cons] at h
    obtain ⟨hl, hc, hu, hr⟩ := h
    by_cases hba : b = a
    · simpa [Memory.delist, hba] using Memory.wfFrom_mono (ih hr) (by omega)
    · simp only [Memory.delist, if_neg hba]
      exact Memory.wfFrom_cons.2 ⟨hl, hc, hu, ih hr⟩

theorem Memory.wfFrom_enlist {cap low a : Nat} {v : BitVec w} {m : Memory w} (h : Memory.wfFrom cap low m = true)
    (absent : ∀ cell ∈ m, cell.1 ≠ a) (hla : low ≤ a) (hac : a < cap) (hv : v ≠ 0) :
    Memory.wfFrom cap low (m.enlist a v) = true := by
  induction m generalizing low with
  | nil => exact Memory.wfFrom_cons.2 ⟨hla, hac, hv, rfl⟩
  | cons cell rest ih =>
    obtain ⟨b, u⟩ := cell
    have hba : b ≠ a := absent (b, u) (by simp)
    have hrest : ∀ cell ∈ rest, cell.1 ≠ a := fun cell hc => absent cell (by simp [hc])
    rw [Memory.wfFrom_cons] at h
    obtain ⟨hl, hc, hu, hr⟩ := h
    by_cases hab : a < b
    · simp only [Memory.enlist, if_pos hab]
      exact Memory.wfFrom_cons.2 ⟨hla, hac, hv, Memory.wfFrom_cons.2 ⟨hab, hc, hu, hr⟩⟩
    · simp only [Memory.enlist, if_neg hab]
      exact Memory.wfFrom_cons.2 ⟨hl, hc, hu, ih hr hrest (by omega)⟩

/-- A write below the array's size keeps the canonical form. -/
theorem Memory.wf_write {cap : Nat} {m : Memory w} (h : m.wf cap = true) {a : Nat} (ha : a < cap) (v : BitVec w) :
    (m.write a v).wf cap = true := by
  unfold Memory.write
  split
  · exact Memory.wfFrom_delist h a
  · next hv =>
    exact Memory.wfFrom_enlist (Memory.wfFrom_delist h a) (m.not_mem_delist a) (Nat.zero_le a) ha
      (by simpa [Memory.unlisted] using hv)

theorem Memory.read_below {cap low : Nat} {m : Memory w} (h : Memory.wfFrom cap low m = true) {a : Nat}
    (ha : a < low) : m.read a = 0 := by
  induction m generalizing low with
  | nil => rfl
  | cons cell rest ih =>
    obtain ⟨b, u⟩ := cell
    rw [Memory.wfFrom_cons] at h
    rw [Memory.read_cons, if_neg (by omega), ih h.2.2.2 (by omega)]

/-- A canonical array holds 0 at and above its size. -/
theorem Memory.read_above {cap low : Nat} {m : Memory w} (h : Memory.wfFrom cap low m = true) {a : Nat}
    (ha : cap ≤ a) : m.read a = 0 := by
  induction m generalizing low with
  | nil => rfl
  | cons cell rest ih =>
    obtain ⟨b, u⟩ := cell
    rw [Memory.wfFrom_cons] at h
    rw [Memory.read_cons, if_neg (by omega), ih h.2.2.2]

theorem Memory.ext_from {cap low : Nat} {m n : Memory w} (hm : Memory.wfFrom cap low m = true)
    (hn : Memory.wfFrom cap low n = true) (h : ∀ a, m.read a = n.read a) : m = n := by
  induction m generalizing n low with
  | nil =>
    cases n with
    | nil => rfl
    | cons cell rest =>
      obtain ⟨a, v⟩ := cell
      have := h a
      simp [Memory.read_cons] at this
      exact absurd this.symm (Memory.wfFrom_cons.1 hn).2.2.1
  | cons cell rest ih =>
    obtain ⟨a, v⟩ := cell
    have hm' := Memory.wfFrom_cons.1 hm
    cases n with
    | nil =>
      have := h a
      simp [Memory.read_cons] at this
      exact absurd this hm'.2.2.1
    | cons cell' rest' =>
      obtain ⟨b, u⟩ := cell'
      have hn' := Memory.wfFrom_cons.1 hn
      have hab : a = b := by
        by_contra hne
        rcases Nat.lt_or_gt_of_ne hne with hlt | hgt
        · have := h a
          rw [Memory.read_cons, if_pos rfl, Memory.read_cons, if_neg (by omega),
            Memory.read_below hn'.2.2.2 (by omega)] at this
          exact hm'.2.2.1 this
        · have := h b
          rw [Memory.read_cons, if_neg (by omega), Memory.read_below hm'.2.2.2 (by omega), Memory.read_cons,
            if_pos rfl] at this
          exact hn'.2.2.1 this.symm
      subst hab
      have hvu : v = u := by simpa [Memory.read_cons] using h a
      subst hvu
      have : rest = rest' := by
        refine ih hm'.2.2.2 hn'.2.2.2 fun c => ?_
        by_cases hc : a = c
        · subst hc
          rw [Memory.read_below hm'.2.2.2 (Nat.lt_succ_self a), Memory.read_below hn'.2.2.2 (Nat.lt_succ_self a)]
        · simpa [Memory.read_cons, hc] using h c
      rw [this]

/-- Two canonical arrays with the same contents are the same data. -/
theorem Memory.ext_wf {cap : Nat} {m n : Memory w} (hm : m.wf cap = true) (hn : n.wf cap = true)
    (h : ∀ a, m.read a = n.read a) : m = n := Memory.ext_from hm hn h

/-! ### Placing bytes -/

/-- Placing bytes below the buffer's end keeps the canonical form. -/
theorem wf_placeBytes {cap : Nat} (bs : List Byte) {m : Memory 8} (h : m.wf cap = true) (a : Nat) :
    (placeBytes cap m a bs).wf cap = true := by
  induction bs generalizing m a with
  | nil => exact h
  | cons b bs ih =>
    unfold placeBytes
    split
    · next ha => exact ih (Memory.wf_write h ha b) (a + 1)
    · exact ih h (a + 1)

/-- Below the first address placed at, nothing changes. -/
theorem read_placeBytes_below {cap : Nat} (bs : List Byte) (m : Memory 8) {a k : Nat} (h : k < a) :
    (placeBytes cap m a bs).read k = m.read k := by
  induction bs generalizing m a with
  | nil => rfl
  | cons b bs ih =>
    unfold placeBytes
    rw [ih _ (by omega)]
    split
    · exact Memory.read_write_other m b (by omega)
    · rfl

/-- What a buffer reads after bytes were placed that fit it. -/
theorem read_placeBytes {cap : Nat} (bs : List Byte) (m : Memory 8) (a k : Nat) (fits : a + bs.length ≤ cap) :
    (placeBytes cap m a bs).read k = if a ≤ k ∧ k < a + bs.length then bs[k - a]?.getD 0 else m.read k := by
  induction bs generalizing m a with
  | nil => simp [placeBytes]
  | cons b bs ih =>
    simp only [List.length_cons] at fits
    unfold placeBytes
    rw [if_pos (by omega), ih _ _ (by omega), Memory.read_write, List.length_cons]
    by_cases hak : a = k
    · subst hak
      simp
    · by_cases hk : a + 1 ≤ k ∧ k < a + 1 + bs.length
      · obtain ⟨j, rfl⟩ : ∃ j, k = a + 1 + j := ⟨k - (a + 1), by omega⟩
        have h2 : a ≤ a + 1 + j ∧ a + 1 + j < a + (bs.length + 1) := by omega
        rw [if_pos hk, if_pos h2]
        have e1 : a + 1 + j - (a + 1) = j := by omega
        have e2 : a + 1 + j - a = j + 1 := by omega
        simp [e1, e2]
      · have h2 : ¬ (a ≤ k ∧ k < a + (bs.length + 1)) := by omega
        rw [if_neg hk, if_neg h2, if_neg hak]

end Sys2Proof.Machine
end

