-- ==== Sys2Proof/Laws/State.lean ====
section
/-! SUPPORT. What each update of the state writes and leaves, one lemma per field, and what the accessors that
read several fields see after an update. -/

namespace Sys2Proof.Machine

variable (s : State)

/-! ### `setPc` -/

@[simp] theorem State.setPc_config (p : Word) : (s.setPc p).config = s.config := rfl
@[simp] theorem State.setPc_code (p : Word) : (s.setPc p).code = s.code := rfl
@[simp] theorem State.setPc_pc (p : Word) : (s.setPc p).pc = p := rfl
@[simp] theorem State.setPc_stk (p : Word) : (s.setPc p).stk = s.stk := rfl
@[simp] theorem State.setPc_sp (p : Word) : (s.setPc p).sp = s.sp := rfl
@[simp] theorem State.setPc_cstk (p : Word) : (s.setPc p).cstk = s.cstk := rfl
@[simp] theorem State.setPc_csp (p : Word) : (s.setPc p).csp = s.csp := rfl
@[simp] theorem State.setPc_mem (p : Word) : (s.setPc p).mem = s.mem := rfl
@[simp] theorem State.setPc_run (p : Word) : (s.setPc p).run = s.run := rfl
@[simp] theorem State.setPc_err (p : Word) : (s.setPc p).err = s.err := rfl
@[simp] theorem State.setPc_cause (p : Word) : (s.setPc p).cause = s.cause := rfl
@[simp] theorem State.setPc_faultPc (p : Word) : (s.setPc p).faultPc = s.faultPc := rfl

/-! ### `push` -/

@[simp] theorem State.push_config (v : Word) : (s.push v).config = s.config := rfl
@[simp] theorem State.push_code (v : Word) : (s.push v).code = s.code := rfl
@[simp] theorem State.push_pc (v : Word) : (s.push v).pc = s.pc := rfl
@[simp] theorem State.push_stk (v : Word) : (s.push v).stk = s.stk.write s.sp v := rfl
@[simp] theorem State.push_sp (v : Word) : (s.push v).sp = s.sp + 1 := rfl
@[simp] theorem State.push_cstk (v : Word) : (s.push v).cstk = s.cstk := rfl
@[simp] theorem State.push_csp (v : Word) : (s.push v).csp = s.csp := rfl
@[simp] theorem State.push_mem (v : Word) : (s.push v).mem = s.mem := rfl
@[simp] theorem State.push_run (v : Word) : (s.push v).run = s.run := rfl
@[simp] theorem State.push_err (v : Word) : (s.push v).err = s.err := rfl
@[simp] theorem State.push_cause (v : Word) : (s.push v).cause = s.cause := rfl
@[simp] theorem State.push_faultPc (v : Word) : (s.push v).faultPc = s.faultPc := rfl

/-! ### `pop` -/

@[simp] theorem State.pop_config : (s.pop).config = s.config := rfl
@[simp] theorem State.pop_code : (s.pop).code = s.code := rfl
@[simp] theorem State.pop_pc : (s.pop).pc = s.pc := rfl
@[simp] theorem State.pop_stk : (s.pop).stk = s.stk := rfl
@[simp] theorem State.pop_sp : (s.pop).sp = s.sp - 1 := rfl
@[simp] theorem State.pop_cstk : (s.pop).cstk = s.cstk := rfl
@[simp] theorem State.pop_csp : (s.pop).csp = s.csp := rfl
@[simp] theorem State.pop_mem : (s.pop).mem = s.mem := rfl
@[simp] theorem State.pop_run : (s.pop).run = s.run := rfl
@[simp] theorem State.pop_err : (s.pop).err = s.err := rfl
@[simp] theorem State.pop_cause : (s.pop).cause = s.cause := rfl
@[simp] theorem State.pop_faultPc : (s.pop).faultPc = s.faultPc := rfl

/-! ### `cpush` -/

@[simp] theorem State.cpush_config (v : Word) : (s.cpush v).config = s.config := rfl
@[simp] theorem State.cpush_code (v : Word) : (s.cpush v).code = s.code := rfl
@[simp] theorem State.cpush_pc (v : Word) : (s.cpush v).pc = s.pc := rfl
@[simp] theorem State.cpush_stk (v : Word) : (s.cpush v).stk = s.stk := rfl
@[simp] theorem State.cpush_sp (v : Word) : (s.cpush v).sp = s.sp := rfl
@[simp] theorem State.cpush_cstk (v : Word) : (s.cpush v).cstk = s.cstk.write s.csp v := rfl
@[simp] theorem State.cpush_csp (v : Word) : (s.cpush v).csp = s.csp + 1 := rfl
@[simp] theorem State.cpush_mem (v : Word) : (s.cpush v).mem = s.mem := rfl
@[simp] theorem State.cpush_run (v : Word) : (s.cpush v).run = s.run := rfl
@[simp] theorem State.cpush_err (v : Word) : (s.cpush v).err = s.err := rfl
@[simp] theorem State.cpush_cause (v : Word) : (s.cpush v).cause = s.cause := rfl
@[simp] theorem State.cpush_faultPc (v : Word) : (s.cpush v).faultPc = s.faultPc := rfl

/-! ### `cpop` -/

@[simp] theorem State.cpop_config : (s.cpop).config = s.config := rfl
@[simp] theorem State.cpop_code : (s.cpop).code = s.code := rfl
@[simp] theorem State.cpop_pc : (s.cpop).pc = s.pc := rfl
@[simp] theorem State.cpop_stk : (s.cpop).stk = s.stk := rfl
@[simp] theorem State.cpop_sp : (s.cpop).sp = s.sp := rfl
@[simp] theorem State.cpop_cstk : (s.cpop).cstk = s.cstk := rfl
@[simp] theorem State.cpop_csp : (s.cpop).csp = s.csp - 1 := rfl
@[simp] theorem State.cpop_mem : (s.cpop).mem = s.mem := rfl
@[simp] theorem State.cpop_run : (s.cpop).run = s.run := rfl
@[simp] theorem State.cpop_err : (s.cpop).err = s.err := rfl
@[simp] theorem State.cpop_cause : (s.cpop).cause = s.cause := rfl
@[simp] theorem State.cpop_faultPc : (s.cpop).faultPc = s.faultPc := rfl

/-! ### `memWrite` -/

@[simp] theorem State.memWrite_config (i : Nat) (v : Word) : (s.memWrite i v).config = s.config := rfl
@[simp] theorem State.memWrite_code (i : Nat) (v : Word) : (s.memWrite i v).code = s.code := rfl
@[simp] theorem State.memWrite_pc (i : Nat) (v : Word) : (s.memWrite i v).pc = s.pc := rfl
@[simp] theorem State.memWrite_stk (i : Nat) (v : Word) : (s.memWrite i v).stk = s.stk := rfl
@[simp] theorem State.memWrite_sp (i : Nat) (v : Word) : (s.memWrite i v).sp = s.sp := rfl
@[simp] theorem State.memWrite_cstk (i : Nat) (v : Word) : (s.memWrite i v).cstk = s.cstk := rfl
@[simp] theorem State.memWrite_csp (i : Nat) (v : Word) : (s.memWrite i v).csp = s.csp := rfl
@[simp] theorem State.memWrite_mem (i : Nat) (v : Word) : (s.memWrite i v).mem = s.mem.write i v := rfl
@[simp] theorem State.memWrite_run (i : Nat) (v : Word) : (s.memWrite i v).run = s.run := rfl
@[simp] theorem State.memWrite_err (i : Nat) (v : Word) : (s.memWrite i v).err = s.err := rfl
@[simp] theorem State.memWrite_cause (i : Nat) (v : Word) : (s.memWrite i v).cause = s.cause := rfl
@[simp] theorem State.memWrite_faultPc (i : Nat) (v : Word) : (s.memWrite i v).faultPc = s.faultPc := rfl

/-! ### `clearRun` -/

@[simp] theorem State.clearRun_config : (s.clearRun).config = s.config := rfl
@[simp] theorem State.clearRun_code : (s.clearRun).code = s.code := rfl
@[simp] theorem State.clearRun_pc : (s.clearRun).pc = s.pc := rfl
@[simp] theorem State.clearRun_stk : (s.clearRun).stk = s.stk := rfl
@[simp] theorem State.clearRun_sp : (s.clearRun).sp = s.sp := rfl
@[simp] theorem State.clearRun_cstk : (s.clearRun).cstk = s.cstk := rfl
@[simp] theorem State.clearRun_csp : (s.clearRun).csp = s.csp := rfl
@[simp] theorem State.clearRun_mem : (s.clearRun).mem = s.mem := rfl
@[simp] theorem State.clearRun_run : (s.clearRun).run = false := rfl
@[simp] theorem State.clearRun_err : (s.clearRun).err = s.err := rfl
@[simp] theorem State.clearRun_cause : (s.clearRun).cause = s.cause := rfl
@[simp] theorem State.clearRun_faultPc : (s.clearRun).faultPc = s.faultPc := rfl

/-! ### `faulted` -/

@[simp] theorem State.faulted_config (c : Cause) : (s.faulted c).config = s.config := rfl
@[simp] theorem State.faulted_code (c : Cause) : (s.faulted c).code = s.code := rfl
@[simp] theorem State.faulted_pc (c : Cause) : (s.faulted c).pc = s.pc := rfl
@[simp] theorem State.faulted_stk (c : Cause) : (s.faulted c).stk = s.stk := rfl
@[simp] theorem State.faulted_sp (c : Cause) : (s.faulted c).sp = s.sp := rfl
@[simp] theorem State.faulted_cstk (c : Cause) : (s.faulted c).cstk = s.cstk := rfl
@[simp] theorem State.faulted_csp (c : Cause) : (s.faulted c).csp = s.csp := rfl
@[simp] theorem State.faulted_mem (c : Cause) : (s.faulted c).mem = s.mem := rfl
@[simp] theorem State.faulted_run (c : Cause) : (s.faulted c).run = false := rfl
@[simp] theorem State.faulted_err (c : Cause) : (s.faulted c).err = true := rfl
@[simp] theorem State.faulted_cause (c : Cause) : (s.faulted c).cause = c.code := rfl
@[simp] theorem State.faulted_faultPc (c : Cause) : (s.faulted c).faultPc = s.pc := rfl

/-! ### `replaceTwo` -/

@[simp] theorem State.replaceTwo_config (o : Op) (v : Word) : (s.replaceTwo o v).config = s.config := rfl
@[simp] theorem State.replaceTwo_code (o : Op) (v : Word) : (s.replaceTwo o v).code = s.code := rfl
@[simp] theorem State.replaceTwo_pc (o : Op) (v : Word) : (s.replaceTwo o v).pc = s.nextPc o := rfl
@[simp] theorem State.replaceTwo_stk (o : Op) (v : Word) : (s.replaceTwo o v).stk = s.stk.write (s.sp - 1 - 1) v := rfl
@[simp] theorem State.replaceTwo_sp (o : Op) (v : Word) : (s.replaceTwo o v).sp = s.sp - 1 - 1 + 1 := rfl
@[simp] theorem State.replaceTwo_cstk (o : Op) (v : Word) : (s.replaceTwo o v).cstk = s.cstk := rfl
@[simp] theorem State.replaceTwo_csp (o : Op) (v : Word) : (s.replaceTwo o v).csp = s.csp := rfl
@[simp] theorem State.replaceTwo_mem (o : Op) (v : Word) : (s.replaceTwo o v).mem = s.mem := rfl
@[simp] theorem State.replaceTwo_run (o : Op) (v : Word) : (s.replaceTwo o v).run = s.run := rfl
@[simp] theorem State.replaceTwo_err (o : Op) (v : Word) : (s.replaceTwo o v).err = s.err := rfl
@[simp] theorem State.replaceTwo_cause (o : Op) (v : Word) : (s.replaceTwo o v).cause = s.cause := rfl
@[simp] theorem State.replaceTwo_faultPc (o : Op) (v : Word) : (s.replaceTwo o v).faultPc = s.faultPc := rfl

/-! ### `placeAtPc` -/

@[simp] theorem State.placeAtPc_config (bs : List Byte) : (s.placeAtPc bs).config = s.config := rfl
@[simp] theorem State.placeAtPc_code (bs : List Byte) : (s.placeAtPc bs).code = placeBytes s.config.codeCap s.code s.pc.toNat bs := rfl
@[simp] theorem State.placeAtPc_pc (bs : List Byte) : (s.placeAtPc bs).pc = s.pc := rfl
@[simp] theorem State.placeAtPc_stk (bs : List Byte) : (s.placeAtPc bs).stk = s.stk := rfl
@[simp] theorem State.placeAtPc_sp (bs : List Byte) : (s.placeAtPc bs).sp = s.sp := rfl
@[simp] theorem State.placeAtPc_cstk (bs : List Byte) : (s.placeAtPc bs).cstk = s.cstk := rfl
@[simp] theorem State.placeAtPc_csp (bs : List Byte) : (s.placeAtPc bs).csp = s.csp := rfl
@[simp] theorem State.placeAtPc_mem (bs : List Byte) : (s.placeAtPc bs).mem = s.mem := rfl
@[simp] theorem State.placeAtPc_run (bs : List Byte) : (s.placeAtPc bs).run = s.run := rfl
@[simp] theorem State.placeAtPc_err (bs : List Byte) : (s.placeAtPc bs).err = s.err := rfl
@[simp] theorem State.placeAtPc_cause (bs : List Byte) : (s.placeAtPc bs).cause = s.cause := rfl
@[simp] theorem State.placeAtPc_faultPc (bs : List Byte) : (s.placeAtPc bs).faultPc = s.faultPc := rfl

/-! ### The fields of the reset state (R38) -/

@[simp] theorem State.reset_config : State.reset.config = Config.hardware := rfl
@[simp] theorem State.reset_code : State.reset.code = [] := rfl
@[simp] theorem State.reset_pc : State.reset.pc = 0 := rfl
@[simp] theorem State.reset_stk : State.reset.stk = [] := rfl
@[simp] theorem State.reset_sp : State.reset.sp = 0 := rfl
@[simp] theorem State.reset_cstk : State.reset.cstk = [] := rfl
@[simp] theorem State.reset_csp : State.reset.csp = 0 := rfl
@[simp] theorem State.reset_mem : State.reset.mem = [] := rfl
@[simp] theorem State.reset_run : State.reset.run = true := rfl
@[simp] theorem State.reset_err : State.reset.err = false := rfl
@[simp] theorem State.reset_cause : State.reset.cause = 0 := rfl
@[simp] theorem State.reset_faultPc : State.reset.faultPc = 0 := rfl

end Sys2Proof.Machine
end

