-- ==== Sys2Proof/Laws/Ops.lean ====
section
/-! SUPPORT. What each shared operation of the meanings can answer, said once. -/

namespace Sys2Proof.Machine

variable {s t : State}

theorem raise_eq (c : Cause) (s : State) : raise c s = .next (s.faulted c) := rfl

theorem raise_next {c : Cause} : raise c s = .next t ↔ t = s.faulted c := by
  simp [raise, eq_comm]

theorem toNat_zext32 (b : Byte) : (zext32 b).toNat = b.toNat := by
  simp [zext32]
  omega

theorem translate_ok {c : Config} {idx : Byte} {i : Nat} :
    translate c idx = .ok i ↔ idx.toNat < c.memSize ∧ i = idx.toNat := by
  simp only [translate, toNat_zext32]
  split <;> simp <;> omega

theorem translate_error {c : Config} {idx : Byte} {e : Cause} :
    translate c idx = .error e ↔ c.memSize ≤ idx.toNat ∧ e = .memOutOfBounds := by
  simp only [translate, toNat_zext32]
  split <;> simp <;> grind

theorem binaryOp_next {o : Op} {f : Word → Word → Word} (h : binaryOp o f s = .next t) :
    (s.sp < 2 ∧ t = s.faulted .stackUnderflow) ∨ (2 ≤ s.sp ∧ t = s.replaceTwo o (f s.left s.right)) := by
  unfold binaryOp at h
  split at h
  · exact .inl ⟨‹_›, raise_next.1 h⟩
  · exact .inr ⟨by omega, by simpa using h.symm⟩

/-- The pushed slots of `replaceTwo`, in one subtraction. -/
theorem State.replaceTwo_eq (o : Op) (v : Word) (h : 2 ≤ s.sp) :
    s.replaceTwo o v = { s with stk := s.stk.write (s.sp - 2) v, sp := s.sp - 1, pc := s.nextPc o } := by
  have e : s.sp - 1 - 1 = s.sp - 2 := by omega
  have e' : s.sp - 2 + 1 = s.sp - 1 := by omega
  simp [State.replaceTwo, State.push, State.pop, State.setPc, State.nextPc, e, e']

theorem stopped_ne_next : stopped s ≠ .next t := by simp [stopped]

/-! ### Sequences -/

theorem length_entries {w : Nat} (m : Memory w) (n : Nat) : (entries m n).length = n := by
  induction n with
  | zero => rfl
  | succ n ih => simp [entries, ih]

/-- A write at or above the depth leaves a sequence as it was. -/
theorem entries_write_above {w : Nat} (m : Memory w) {n a : Nat} (v : BitVec w) (h : n ≤ a) :
    entries (m.write a v) n = entries m n := by
  induction n with
  | zero => rfl
  | succ n ih => simp [entries, ih (by omega), Memory.read_write_other m v (show n ≠ a by omega)]

/-- A write at the depth and one more entry is a push. -/
theorem entries_push {w : Nat} (m : Memory w) (n : Nat) (v : BitVec w) :
    entries (m.write n v) (n + 1) = v :: entries m n := by
  simp [entries, entries_write_above m v (Nat.le_refl n)]

theorem entries_congr {w : Nat} {m m' : Memory w} {n : Nat} (h : ∀ k, k < n → m.read k = m'.read k) :
    entries m n = entries m' n := by
  induction n with
  | zero => rfl
  | succ n ih => simp [entries, ih (fun k hk => h k (by omega)), h n (by omega)]

end Sys2Proof.Machine
end

