-- ==== Sys2Proof/Laws/PerInstr.lean ====
section
/-! SUPPORT. Laws of each instruction as syntax, one lemma per constructor. -/

namespace Sys2Proof.Laws.EncodedLength

/-- R71, R75: the encoding of an instruction is its opcode byte and exactly the operand bytes of its opcode's
format. -/
def Statement (i : Instr) : Prop :=
  ∀ m : OpcodeMap, (encode m i).length = i.length ∧ (encode m i).head? = some (m.byteOf i.op)

theorem push (imm : Word) : Statement (.push imm) := fun m => ⟨length_encode m _, rfl⟩
theorem pop : Statement .pop := fun m => ⟨length_encode m _, rfl⟩
theorem dup : Statement .dup := fun m => ⟨length_encode m _, rfl⟩
theorem add : Statement .add := fun m => ⟨length_encode m _, rfl⟩
theorem sub : Statement .sub := fun m => ⟨length_encode m _, rfl⟩
theorem mul : Statement .mul := fun m => ⟨length_encode m _, rfl⟩
theorem div : Statement .div := fun m => ⟨length_encode m _, rfl⟩
theorem cmp : Statement .cmp := fun m => ⟨length_encode m _, rfl⟩
theorem jmp (target : Word) : Statement (.jmp target) := fun m => ⟨length_encode m _, rfl⟩
theorem jz (target : Word) : Statement (.jz target) := fun m => ⟨length_encode m _, rfl⟩
theorem jnz (target : Word) : Statement (.jnz target) := fun m => ⟨length_encode m _, rfl⟩
theorem store (idx : Byte) : Statement (.store idx) := fun m => ⟨length_encode m _, rfl⟩
theorem load (idx : Byte) : Statement (.load idx) := fun m => ⟨length_encode m _, rfl⟩
theorem call (target : Word) : Statement (.call target) := fun m => ⟨length_encode m _, rfl⟩
theorem ret : Statement .ret := fun m => ⟨length_encode m _, rfl⟩
theorem halt : Statement .halt := fun m => ⟨length_encode m _, rfl⟩

end Sys2Proof.Laws.EncodedLength
end

