-- ==== Sys2Proof/Laws/Step.lean ====
section
/-! SUPPORT. What the fetch and one step can answer. -/

namespace Sys2Proof.Machine

variable {s t : State}

theorem fetch_ok {i : Instr} (h : fetch s = .ok i) :
    s.pc.toNat < s.config.codeCap ∧ ∃ rest, decode s.config.opcodes (fetchWindow s) = .ok (i, rest) := by
  unfold fetch at h
  split at h
  · simp at h
  · split at h
    · simp at h
    · next j rest hd => exact ⟨by omega, rest, by simp at h; rw [hd, h]⟩

/-- The three ways a step can end. -/
theorem step_cases (s : State) :
    (s.run = false ∧ step s = stopped s) ∨
    (s.run = true ∧ ∃ c, fetch s = .error c ∧ step s = .next (s.faulted c)) ∨
    (s.run = true ∧ ∃ i, fetch s = .ok i ∧ step s = exec i s) := by
  unfold step
  cases hr : s.run
  · simp
  · cases hf : fetch s with
    | error c => simp [raise]
    | ok i => simp

/-- What a step that answers a next state did. -/
theorem step_next (h : step s = .next t) :
    s.run = true ∧ ((∃ c, fetch s = .error c ∧ t = s.faulted c) ∨ (∃ i, fetch s = .ok i ∧ exec i s = .next t)) := by
  rcases step_cases s with ⟨_, e⟩ | ⟨hr, c, hc, e⟩ | ⟨hr, i, hi, e⟩
  · exact absurd (e.symm.trans h) stopped_ne_next
  · rw [e] at h
    exact ⟨hr, .inl ⟨c, hc, by simpa using h.symm⟩⟩
  · exact ⟨hr, .inr ⟨i, hi, by rw [← e, h]⟩⟩

end Sys2Proof.Machine
end

