-- ==== Sys2Proof/Tests/Slice0.lean ====
section
/-! SUPPORT. The model's own tests, and a witness of the hypotheses of each statement that has some. The expected
values are those of the spec: the encodings of 30_encoding.md, the examples of the instruction rules, and the vectors
of 95_test_vectors.md, whose numbers stand in the comments. -/

namespace Sys2Proof.Machine.Tests

/-! ### Small states -/

/-- The cells of an array from an address on. -/
def cells (a : Nat) : List Int → Memory 32
  | [] => []
  | v :: vs => (cells (a + 1) vs).write a (BitVec.ofInt 32 v)

/-- Small capacities, as 95_test_vectors.md uses them: `STACK_CAP` = `CALL_CAP` = 2, `MEM_SIZE` = 16, `CODE_CAP` = 11. -/
def small : Config where
  stackCap := 2
  callCap := 2
  memSize := 16
  codeCap := 11
  opcodes := OpcodeMap.hardware

/-- A running core at address 0 with a program, an operand stack and a call stack (both bottom first). -/
def coreWith (c : Config) (program : List Byte) (stack calls : List Int) : State :=
  { State.reset with
    config := c, code := placeBytes c.codeCap [] 0 program,
    stk := cells 0 stack, sp := stack.length, cstk := cells 0 calls, csp := calls.length }

/-- The small core with an operand stack. -/
def withStack (stack : List Int) : State := coreWith small [] stack []

/-- The hardware with an operand stack. -/
def hwStack (stack : List Int) : State := coreWith Config.hardware [] stack []

/-- The small core with a program. -/
def withCode (program : List Byte) : State := coreWith small program [] []

/-- A result is a next state that meets a check. -/
def nextMeets (r : Result) (check : State → Bool) : Bool :=
  match r with
  | .next t => check t
  | .fault _ => false
  | .refused _ => false

/-- The operand stack, top first. -/
def stackInts (s : State) : List Int := (entries s.stk s.sp).map BitVec.toInt

/-- A next state with this operand stack (top first) and `PC`, and the run going on. -/
def goesTo (r : Result) (stack : List Int) (pc : Int) : Bool :=
  nextMeets r fun t => stackInts t == stack && t.pc == BitVec.ofInt 32 pc && t.run && !t.err

/-- A next state halted on error with this cause and `FAULT_PC`, the operand stack (top first) left in place. -/
def faultsWith (r : Result) (cause : BitVec 4) (faultPc : Word) (stack : List Int) : Bool :=
  nextMeets r fun t => !t.run && t.err && t.cause == cause && t.faultPc == faultPc && stackInts t == stack

/-! ### Well-formedness -/

theorem test_wf_hardware : Config.hardware.wf = true := by decide
theorem test_wf_small : small.wf = true := by decide
theorem test_wf_refuses_stackCap_zero : ({ small with stackCap := 0 } : Config).wf = false := by decide
theorem test_wf_refuses_callCap_zero : ({ small with callCap := 0 } : Config).wf = false := by decide
theorem test_wf_refuses_memSize_zero : ({ small with memSize := 0 } : Config).wf = false := by decide
theorem test_wf_refuses_memSize_257 : ({ small with memSize := 257 } : Config).wf = false := by decide
theorem test_wf_refuses_codeCap_zero : ({ small with codeCap := 0 } : Config).wf = false := by decide
theorem test_wf_refuses_codeCap_two_pow_31 : ({ small with codeCap := 2 ^ 31 } : Config).wf = false := by decide
theorem test_wf_refuses_two_opcodes_of_one_byte :
    ({ OpcodeMap.hardware with halt := 0x01 } : OpcodeMap).wf = false := by decide
theorem test_wf_refuses_opcode_zero : ({ OpcodeMap.hardware with push := 0x00 } : OpcodeMap).wf = false := by decide
theorem test_wf_refuses_long_program : small.accepts (List.replicate 12 0x02) = false := by decide

/-! ### Decoding, from the words of R72 and R74 written out -/

theorem test_decode_stack :
    decode OpcodeMap.hardware [0x01, 0xFF, 0xFF, 0xFF, 0xFF] = .ok (.push (-1), []) ∧
    decode OpcodeMap.hardware [0x01, 0x00, 0x00, 0x01, 0x00] = .ok (.push 65536, []) ∧
    decode OpcodeMap.hardware [0x02] = .ok (.pop, []) ∧ decode OpcodeMap.hardware [0x03] = .ok (.dup, []) := by decide
theorem test_decode_arithmetic :
    decode OpcodeMap.hardware [0x04] = .ok (.add, []) ∧ decode OpcodeMap.hardware [0x05] = .ok (.sub, []) ∧
    decode OpcodeMap.hardware [0x06] = .ok (.mul, []) ∧ decode OpcodeMap.hardware [0x07] = .ok (.div, []) ∧
    decode OpcodeMap.hardware [0x08] = .ok (.cmp, []) := by decide
theorem test_decode_branch :
    decode OpcodeMap.hardware [0x09, 0x00, 0x10, 0x00, 0x00] = .ok (.jmp 4096, []) ∧
    decode OpcodeMap.hardware [0x0A, 0x10, 0x00, 0x00, 0x00] = .ok (.jz 16, []) ∧
    decode OpcodeMap.hardware [0x0B, 0x1B, 0x00, 0x00, 0x00] = .ok (.jnz 27, []) := by decide
theorem test_decode_memory :
    decode OpcodeMap.hardware [0x0C, 0x2C] = .ok (.store 44, []) ∧
    decode OpcodeMap.hardware [0x0D, 0xC8] = .ok (.load 200, []) := by decide
theorem test_decode_subroutine_and_system :
    decode OpcodeMap.hardware [0x0E, 0x88, 0x13, 0x00, 0x00] = .ok (.call 5000, []) ∧
    decode OpcodeMap.hardware [0x0F] = .ok (.ret, []) ∧ decode OpcodeMap.hardware [0x10] = .ok (.halt, []) := by decide
theorem test_decode_rejects :
    decode OpcodeMap.hardware [0x00] = .error (.invalidOpcode 0x00) ∧
    decode OpcodeMap.hardware [0x11] = .error (.invalidOpcode 0x11) ∧
    decode OpcodeMap.hardware [0x0D] = .error (.truncatedOperand .load) ∧
    decode OpcodeMap.hardware [0x01, 0x05] = .error (.truncatedOperand .push) ∧
    decode OpcodeMap.hardware [] = .error .noOpcode := by decide
/-- The table's numbering: the first byte in bits 7..0; a row of 8 bits reads operand bytes of 0. -/
theorem test_decode_table_word :
    decodeTableWord 40 0x0000001009 = some (.jmp 0x10) ∧ decodeTableWord 16 0x030C = some (.store 3) ∧
    decodeTableWord 8 0x0E = some (.call 0) ∧ decodeTableWord 8 0xFF = none := by decide
theorem test_placed_word_runs : goesTo (step (State.reset.withFetchWord 40 0x80000001)) [0x800000] 5 = true := by decide

/-! ### One step of each instruction -/

/-- R100's example, at address 0. -/
theorem test_push : goesTo (step (coreWith Config.hardware [0x01, 0xFF, 0xFF, 0xFF, 0xFF] [] [])) [-1] 5 = true := by decide
/-- V4. -/
theorem test_push_full : faultsWith (exec (.push 3) (withStack [1, 2])) 1 0 [2, 1] = true := by decide
/-- R101's example. -/
theorem test_pop : goesTo (exec .pop (hwStack [7, 9])) [7] 1 = true := by decide
/-- V5. -/
theorem test_pop_empty : faultsWith (exec .pop (hwStack [])) 2 0 [] = true := by decide
/-- V8. -/
theorem test_dup : goesTo (exec .dup (hwStack [5])) [5, 5] 1 = true := by decide
/-- V9. -/
theorem test_dup_full : faultsWith (exec .dup (withStack [1, 2])) 1 0 [2, 1] = true := by decide
/-- V10. -/
theorem test_add_wraps : goesTo (exec .add (hwStack [2147483647, 1])) [-2147483648] 1 = true := by decide
/-- V12: one entry stays. -/
theorem test_add_one_entry : faultsWith (exec .add (hwStack [1])) 2 0 [1] = true := by decide
/-- V13: the order of the operands. -/
theorem test_sub : goesTo (exec .sub (hwStack [10, 3])) [7] 1 = true := by decide
/-- V15. -/
theorem test_sub_wraps : goesTo (exec .sub (hwStack [0, -2147483648])) [-2147483648] 1 = true := by decide
/-- V20. -/
theorem test_mul : goesTo (exec .mul (hwStack [-3, 4])) [-12] 1 = true := by decide
/-- V18. -/
theorem test_mul_wraps : goesTo (exec .mul (hwStack [2147483647, 2])) [-2] 1 = true := by decide
/-- V22, V24, V25, V27: truncation, and the overflowing quotient. -/
theorem test_div :
    (goesTo (exec .div (hwStack [-7, 2])) [-3] 1 && goesTo (exec .div (hwStack [-7, -2])) [3] 1 &&
      goesTo (exec .div (hwStack [-1, 2])) [0] 1 &&
      goesTo (exec .div (hwStack [-2147483648, -1])) [-2147483648] 1) = true := by decide
/-- V29 and V28: the divisor is tested after the depth, and both operands stay. -/
theorem test_div_faults :
    (faultsWith (exec .div (hwStack [5, 0])) 6 0 [0, 5] && faultsWith (exec .div (hwStack [0])) 2 0 [0]) = true := by
  decide
/-- V34. -/
theorem test_cmp_signed : goesTo (exec .cmp (hwStack [-1, 0])) [1] 1 = true := by decide
/-- V33, V36. -/
theorem test_cmp_not_less :
    (goesTo (exec .cmp (hwStack [4, 4])) [0] 1 && goesTo (exec .cmp (hwStack [2147483647, -2147483648])) [0] 1) = true := by
  decide
/-- R130's example, and V40: the target is stored unmasked. -/
theorem test_jmp : (goesTo (exec (.jmp 12) (hwStack [4])) [4] 12 && goesTo (exec (.jmp (-1)) (hwStack [])) [] (-1)) = true := by
  decide
/-- R131's example, both ways. -/
theorem test_jz :
    (goesTo (exec (.jz 16) { hwStack [0] with pc := 5 }) [] 16 &&
      goesTo (exec (.jz 16) { hwStack [4] with pc := 5 }) [] 10) = true := by decide
/-- V44. -/
theorem test_jz_empty : faultsWith (exec (.jz 0) (hwStack [])) 2 0 [] = true := by decide
/-- R132's example, both ways. -/
theorem test_jnz :
    (goesTo (exec (.jnz 0) { hwStack [-1] with pc := 5 }) [] 0 &&
      goesTo (exec (.jnz 0) { hwStack [0] with pc := 5 }) [] 10) = true := by decide
/-- V48. -/
theorem test_jnz_empty : faultsWith (exec (.jnz 0) (hwStack [])) 2 0 [] = true := by decide
/-- R140's example. -/
theorem test_store :
    nextMeets (exec (.store 3) (hwStack [42])) (fun t => t.mem == cells 3 [42] && t.sp == 0 && t.pc == 2) = true := by
  decide
/-- V53 and V58: the stack is checked before the index. -/
theorem test_store_faults :
    (faultsWith (exec (.store 16) (withStack [1])) 5 0 [1] && faultsWith (exec (.store 16) (withStack [])) 2 0 []) = true := by
  decide
/-- R141's example, and V51. -/
theorem test_load :
    (goesTo (exec (.load 3) { hwStack [] with mem := cells 3 [42] }) [42] 2 && goesTo (exec (.load 200) (hwStack [])) [0] 2) =
      true := by decide
/-- V55 and V57: the stack is checked before the index. -/
theorem test_load_faults :
    (faultsWith (exec (.load 16) (withStack [])) 5 0 [] && faultsWith (exec (.load 16) (withStack [1, 2])) 1 0 [2, 1]) = true := by
  decide
/-- R150's example. -/
theorem test_call :
    nextMeets (exec (.call 20) (hwStack [])) (fun t => t.cstk == cells 0 [5] && t.csp == 1 && t.pc == 20) = true := by decide
/-- V64. -/
theorem test_call_full : faultsWith (exec (.call 15) (coreWith small [] [] [5, 10])) 3 0 [] = true := by decide
/-- R151's example. -/
theorem test_ret : nextMeets (exec .ret (coreWith small [] [] [5])) (fun t => t.csp == 0 && t.pc == 5) = true := by decide
/-- V61. -/
theorem test_ret_empty : faultsWith (exec .ret (hwStack [])) 4 0 [] = true := by decide
/-- R160's example. -/
theorem test_halt :
    nextMeets (exec .halt { hwStack [5] with pc := 15 }) (fun t => !t.run && !t.err && t.pc == 16 && t.result == some 5) =
      true := by decide

/-! ### Fetching -/

/-- V70, V72. -/
theorem test_fetch_invalid :
    (faultsWith (step (withCode [0x11])) 7 0 [] && faultsWith (step (withCode [0x00])) 7 0 []) = true := by decide
/-- V41: an out-of-range `PC` faults with itself in `FAULT_PC`. -/
theorem test_fetch_out_of_range : faultsWith (step { hwStack [] with pc := 4096 }) 8 4096 [] = true := by decide
/-- V74, V76: an operand past the end faults at its opcode; an instruction that ends at the end runs. -/
theorem test_fetch_operand_bound :
    (faultsWith (step { coreWith { small with codeCap := 8 } [0x01, 1, 0, 0, 0, 0x02, 0x01, 0x05] [] [] with pc := 6 }) 8 6 [] &&
      faultsWith (step (coreWith { small with codeCap := 2 } [0x0C, 0x05] [] [])) 2 0 []) = true := by decide
/-- R77: no step after HALT, none after a fault. -/
theorem test_no_step_when_stopped :
    step { hwStack [] with run := false } = .fault .halted ∧
    step { hwStack [] with run := false, err := true } = .fault .haltedOnError := ⟨rfl, rfl⟩

/-! ### The host and the assembler -/

/-- E2, from its source text: the artifact. -/
theorem test_assemble :
    assemble OpcodeMap.hardware ['P', 'U', 'S', 'H', ' ', '2', ' ', 'P', 'U', 'S', 'H', '\n', '3', ' ', 'A', 'D', 'D', ' ',
      'H', 'A', 'L', 'T'] = .ok [0x01, 2, 0, 0, 0, 0x01, 3, 0, 0, 0, 0x04, 0x10] := by decide
/-- V59, V60: a 1-byte literal is truncated; R84's range of a 4-byte literal; R86's errors. -/
theorem test_assemble_operands :
    indexOperand ['-', '1'] = .ok 0xFF ∧ indexOperand ['3', '0', '0'] = .ok 0x2C ∧
    wordOperand ['2', '1', '4', '7', '4', '8', '3', '6', '4', '8'] =
      .error (.malformedOperand ['2', '1', '4', '7', '4', '8', '3', '6', '4', '8']) ∧
    wordOperand ['-'] = .error (.malformedOperand ['-']) ∧
    parseTokens [['p', 'o', 'p']] = .error (.unrecognizedMnemonic ['p', 'o', 'p']) ∧
    parseTokens [['J', 'Z']] = .error (.missingOperand .jz) := by decide
/-- P4's status word 0x1A: `CAUSE` = 6, `ERR` = 1, `RUN` = 0. -/
theorem test_status_word : ((hwStack []).faulted .divByZero).statusWord = 0x1A := by decide
/-- V71's reset and first cycle. -/
theorem test_host_reset : nextMeets (hostReset Config.hardware [0xFF])
    (fun s => s.runStatus == .running && (runUnder 2 s).runStatus == .onError 7 0) = true := by decide

/-! ### Witnesses of the statements' hypotheses -/

theorem witness_PushPushesItsConstant :
    (withStack [1, 2]).sp = (withStack [1, 2]).config.stackCap ∧
    (withStack [1]).sp ≠ (withStack [1]).config.stackCap := by decide
theorem witness_PopDiscardsTheTop : (withStack []).sp = 0 ∧ (withStack [1]).sp ≠ 0 := by decide
theorem witness_DupCopiesTheTop :
    (withStack []).sp = 0 ∧
    ((withStack [1, 2]).sp ≠ 0 ∧ (withStack [1, 2]).sp = (withStack [1, 2]).config.stackCap) ∧
    ((withStack [1]).sp ≠ 0 ∧ (withStack [1]).sp ≠ (withStack [1]).config.stackCap) := by decide
theorem witness_StackMutationsStayInBounds :
    (withStack [1]).sp ≤ (withStack [1]).config.stackCap ∧
    (∃ t, exec (.push 3) (withStack [1]) = .next t) ∧ firstFault (.push 3) (withStack [1]) = none ∧
    (withStack [1, 2]).sp ≤ (withStack [1, 2]).config.stackCap ∧
    (∃ t, exec (.push 3) (withStack [1, 2]) = .next t) ∧
    firstFault (.push 3) (withStack [1, 2]) = some .stackOverflow :=
  ⟨by decide, ⟨_, rfl⟩, by decide, by decide, ⟨_, rfl⟩, by decide⟩
theorem witness_AddPushesTheWrappedSum : (withStack [1]).sp < 2 ∧ 2 ≤ (withStack [1, 2]).sp := by decide
theorem witness_SubPushesTheWrappedDifference : (withStack [1]).sp < 2 ∧ 2 ≤ (withStack [1, 2]).sp := by decide
theorem witness_MulPushesTheLowProduct : (withStack [1]).sp < 2 ∧ 2 ≤ (withStack [1, 2]).sp := by decide
theorem witness_DivPushesTheTruncatedQuotient :
    (withStack [1]).sp < 2 ∧
    (2 ≤ (withStack [1, 0]).sp ∧ (withStack [1, 0]).stk.read ((withStack [1, 0]).sp - 1) = 0) ∧
    (2 ≤ (withStack [1, 2]).sp ∧ (withStack [1, 2]).stk.read ((withStack [1, 2]).sp - 1) ≠ 0) := by decide
theorem witness_CmpPushesSignedLess : (withStack [1]).sp < 2 ∧ 2 ≤ (withStack [1, 2]).sp := by decide
theorem witness_BinaryOperationsTakeLeftBelowRight :
    entries (withStack [1, 2]).stk (withStack [1, 2]).sp = [2, 1] ∧ (2 : Word) ≠ 0 ∧
    (entries (withStack [1]).stk (withStack [1]).sp).length < 2 := by decide
theorem witness_ArithmeticIsModular :
    2 ≤ (withStack [1, 0]).sp ∧ (withStack [1, 0]).stk.read 1 = 0 ∧ 2 ≤ (withStack [-2147483648, -1]).sp ∧
    ((withStack [-2147483648, -1]).stk.read 0).toInt = -2 ^ 31 ∧ ((withStack [-2147483648, -1]).stk.read 1).toInt = -1 ∧
    ((withStack [1, 2]).stk.read 0).toInt ≠ -2 ^ 31 := by decide
theorem witness_WrapAndTruncationAreAsDefined :
    ((-2 : Int) ^ 31 ≤ 0 ∧ (0 : Int) < 2 ^ 31 ∧ ((0 : Int) - 2 ^ 32) % 2 ^ 32 = 0) ∧ (2 : Int) ≠ 0 := by decide
theorem witness_JmpSetsPc : (withStack []).run = true ∧ (withStack []).config.codeCap ≤ (11 : Word).toNat := by decide
theorem witness_JzPopsAndJumpsOnZero :
    (withStack []).sp = 0 ∧ ((withStack [0]).sp ≠ 0 ∧ (withStack [0]).stk.read 0 = 0) ∧
    ((withStack [4]).sp ≠ 0 ∧ (withStack [4]).stk.read 0 ≠ 0) := by decide
theorem witness_JnzPopsAndJumpsOnNonZero :
    (withStack []).sp = 0 ∧ ((withStack [4]).sp ≠ 0 ∧ (withStack [4]).stk.read 0 ≠ 0) ∧
    ((withStack [0]).sp ≠ 0 ∧ (withStack [0]).stk.read 0 = 0) := by decide
theorem witness_TargetsAreUnmaskedAndCheckedAtFetch :
    (withStack [0]).run = true ∧ (withStack [0]).config.codeCap ≤ (11 : Word).toNat ∧
    (withStack [0]).sp ≠ 0 ∧ (withStack [0]).stk.read ((withStack [0]).sp - 1) = 0 ∧
    (withStack [4]).sp ≠ 0 ∧ (withStack [4]).stk.read ((withStack [4]).sp - 1) ≠ 0 ∧
    (withStack [0]).csp ≠ (withStack [0]).config.callCap := by decide
theorem witness_StoreWritesOneWord :
    (withStack []).sp = 0 ∧ ((withStack [1]).sp ≠ 0 ∧ (withStack [1]).config.memSize ≤ (16 : Byte).toNat) ∧
    ((withStack [1]).sp ≠ 0 ∧ (15 : Byte).toNat < (withStack [1]).config.memSize) := by decide
theorem witness_LoadPushesOneWord :
    (withStack [1, 2]).sp = (withStack [1, 2]).config.stackCap ∧
    ((withStack [1]).sp ≠ (withStack [1]).config.stackCap ∧ (withStack [1]).config.memSize ≤ (16 : Byte).toNat) ∧
    ((withStack [1]).sp ≠ (withStack [1]).config.stackCap ∧ (15 : Byte).toNat < (withStack [1]).config.memSize) ∧
    ∃ fresh, hostReset small [0x10] = .next fresh := ⟨by decide, by decide, by decide, _, rfl⟩
theorem witness_TranslatorIsABoundedIdentity :
    (15 : Byte).toNat < small.memSize ∧ small.memSize ≤ (16 : Byte).toNat := by decide

/-- `STORE 3 LOAD 3` with 5 on the stack, and its states. -/
def storeLoad : State := coreWith small [0x0C, 3, 0x0D, 3] [5] []
def storeLoadAfter : State := { storeLoad with sp := 0, mem := [(3, 5)], pc := 2 }
theorem witness_LoadReturnsTheLastStore :
    (fetch storeLoad = .ok (.store 3) ∧ firstFault (.store 3) storeLoad = none ∧ step storeLoad = .next storeLoadAfter ∧
      StepsAvoiding (fun i => i = .store 3) 0 storeLoadAfter storeLoadAfter ∧
      (∃ u, exec (.load 3) storeLoadAfter = .next u) ∧ firstFault (.load 3) storeLoadAfter = none) ∧
    (hostReset small [] = .next (withCode []) ∧
      StepsAvoiding (fun i => i = .store 3) 0 (withCode []) (withCode []) ∧
      (∃ u, exec (.load 3) (withCode []) = .next u) ∧ firstFault (.load 3) (withCode []) = none) :=
  ⟨⟨by rfl, by decide, by rfl, rfl, ⟨_, rfl⟩, by decide⟩, ⟨by rfl, rfl, ⟨_, rfl⟩, by decide⟩⟩
theorem witness_CallSavesNextAndJumps :
    (coreWith small [] [] [5, 10]).csp = (coreWith small [] [] [5, 10]).config.callCap ∧
    (coreWith small [] [] [5]).csp ≠ (coreWith small [] [] [5]).config.callCap ∧ (coreWith small [] [] [5]).run = true ∧
    (coreWith small [] [] [5]).config.codeCap ≤ (11 : Word).toNat := by decide
theorem witness_RetReturnsToTheSavedAddress :
    (coreWith small [] [] []).csp = 0 ∧ (coreWith small [] [] [11]).csp ≠ 0 ∧ (coreWith small [] [] [11]).run = true ∧
    (coreWith small [] [] [11]).config.codeCap ≤ ((coreWith small [] [] [11]).cstk.read 0).toNat := by decide
theorem witness_OnlyCallAndRetUseTheCallStack :
    (∀ target, Instr.pop ≠ .call target) ∧ Instr.pop ≠ .ret ∧ ∃ t, exec .pop (withStack [1]) = .next t :=
  ⟨by simp, by simp, _, rfl⟩
theorem witness_HaltEndsTheRunCleanly :
    ((withStack []).err = false ∧ (withStack []).sp = 0) ∧ ((withStack [5]).err = false ∧ 0 < (withStack [5]).sp) ∧
    ∃ t, step (withCode [0x10]) = .next t ∧ t.run = false ∧ t.err = false :=
  ⟨by decide, by decide, _, rfl, rfl, rfl⟩
theorem witness_FaultsArePrecise :
    (withCode [0x02]).err = false ∧ ∃ t, step (withCode [0x02]) = .next t ∧ t.err = true := ⟨rfl, _, rfl, rfl⟩
/-- A faulting step for each cause of R170. -/
theorem witness_FaultCausesAreAsTabled :
    (∃ t, step (coreWith small [0x03] [1, 2] []) = .next t ∧ t.err = true ∧ t.cause = 1) ∧
    (∃ t, step (withCode [0x02]) = .next t ∧ t.err = true ∧ t.cause = 2) ∧
    (∃ t, step (coreWith small [0x04] [1] []) = .next t ∧ t.err = true ∧ t.cause = 2) ∧
    (∃ t, step (coreWith small [0x0E, 0, 0, 0, 0] [] [5, 10]) = .next t ∧ t.err = true ∧ t.cause = 3) ∧
    (∃ t, step (withCode [0x0F]) = .next t ∧ t.err = true ∧ t.cause = 4) ∧
    (∃ t, step (withCode [0x0D, 16]) = .next t ∧ t.err = true ∧ t.cause = 5) ∧
    (∃ t, step (coreWith small [0x07] [1, 0] []) = .next t ∧ t.err = true ∧ t.cause = 6) ∧
    (∃ t, step (withCode []) = .next t ∧ t.err = true ∧ t.cause = 7) ∧
    (∃ t, step { withCode [] with pc := 11 } = .next t ∧ t.err = true ∧ t.cause = 8) :=
  ⟨⟨_, rfl, rfl, rfl⟩, ⟨_, rfl, rfl, rfl⟩, ⟨_, rfl, rfl, rfl⟩, ⟨_, rfl, rfl, rfl⟩, ⟨_, rfl, rfl, rfl⟩,
    ⟨_, rfl, rfl, rfl⟩, ⟨_, rfl, rfl, rfl⟩, ⟨_, rfl, rfl, rfl⟩, ⟨_, rfl, rfl, rfl⟩⟩
theorem witness_ChecksAreMadeInOrder :
    (withCode []).run = true ∧ ({ withCode [] with pc := 11 } : State).config.codeCap ≤ (11 : Word).toNat ∧
    (withCode []).pc.toNat < (withCode []).config.codeCap ∧
    (withCode []).config.opcodes.opcodeOf ((withCode []).codeByte 0) = none ∧
    small.opcodes.opcodeOf 0x0D = some .load ∧ small.codeCap < 10 + Op.load.length ∧
    9 + Op.load.length ≤ small.codeCap ∧
    firstFault .dup (withStack []) = some .stackUnderflow ∧ firstFault .dup (withStack [1]) = none := by decide
theorem witness_ProgramsCannotReachTheStatusRegisters :
    firstFault .pop (withStack []) = some .stackUnderflow ∧ firstFault .pop (withStack [1]) = none ∧
    ∃ t, exec .pop (withStack [1]) = .next t := ⟨by decide, by decide, _, rfl⟩
theorem witness_StepRunsTheDecodedInstruction :
    (withCode [0x0D, 3]).run = true ∧ (withCode [0x0D, 3]).pc.toNat < (withCode [0x0D, 3]).config.codeCap ∧
    decode (withCode [0x0D, 3]).config.opcodes ((withCode [0x0D, 3]).codeBytes 0 (min 5 (11 - 0))) =
      .ok (.load 3, [0, 0, 0]) := by decide
/-- An instruction that ends at `CODE_CAP`. -/
theorem witness_StepRunsTheEncodedInstruction :
    let s : State := { coreWith small [0, 0, 0, 0, 0, 0, 0, 0, 0, 0x0D, 3] [] [] with pc := 9 }
    s.config.opcodes.wf = true ∧ s.run = true ∧ s.pc.toNat + (Instr.load 3).length ≤ s.config.codeCap ∧
    s.codeBytes s.pc.toNat (Instr.load 3).length = encode s.config.opcodes (.load 3) := by decide
theorem witness_StepIsTheWrittenCycle :
    (withCode []).run = true ∧ ({ withCode [] with run := false } : State).run = false := by decide
theorem witness_OnlyARunningCoreSteps :
    (withCode []).run = true ∧ ({ withCode [] with run := false } : State).run = false := by decide
theorem witness_StoppedCoresAnswerByName :
    ({ withCode [] with run := false } : State).run = false ∧ ({ withCode [] with run := false } : State).err = false ∧
    ({ withCode [] with run := false, err := true } : State).run = false ∧
    ({ withCode [] with run := false, err := true } : State).err = true := by decide
theorem witness_PcHoldsTargetOrNext :
    (withCode [0x0D, 3]).config.wf = true ∧ fetch (withCode [0x0D, 3]) = .ok (.load 3) ∧
    (∃ t, exec (.load 3) (withCode [0x0D, 3]) = .next t) ∧ firstFault (.load 3) (withCode [0x0D, 3]) = none ∧
    targetOf (.load 3) (withCode [0x0D, 3]) = none ∧
    fetch (withCode [0x09, 7, 0, 0, 0]) = .ok (.jmp 7) ∧ firstFault (.jmp 7) (withCode [0x09, 7, 0, 0, 0]) = none ∧
    targetOf (.jmp 7) (withCode [0x09, 7, 0, 0, 0]) = some 7 ∧
    fetch (withCode [0x02]) = .ok .pop ∧ firstFault .pop (withCode [0x02]) = some .stackUnderflow :=
  ⟨by decide, by rfl, ⟨_, rfl⟩, by decide, by decide, by rfl, by decide, by decide, by rfl, by decide⟩
theorem witness_SelfJumpRunsForever :
    (withCode [0x09, 0, 0, 0, 0]).run = true ∧
    fetch (withCode [0x09, 0, 0, 0, 0]) = .ok (.jmp (withCode [0x09, 0, 0, 0, 0]).pc) := ⟨by decide, by rfl⟩
theorem witness_CodeIsNeverWritten : ∃ t, step (coreWith small [0x0C, 3] [5] []) = .next t := ⟨_, rfl⟩
theorem witness_OnlyStoreWritesMemory :
    (∃ t, exec .pop (withStack [1]) = .next t) ∧ (∀ idx, Instr.pop ≠ .store idx) ∧
    (∃ t, exec (.store 15) (withStack [1]) = .next t) ∧ translate small 15 = .ok 15 ∧
    (∃ t, exec (.store 16) (withStack [1]) = .next t) ∧ translate small 16 = .error .memOutOfBounds :=
  ⟨⟨_, rfl⟩, by simp, ⟨_, rfl⟩, by rfl, ⟨_, rfl⟩, by rfl⟩
theorem witness_InstructionsTouchOnlyTheTabledState :
    firstFault .add (withStack [1, 2]) = none ∧ (∃ t, exec .add (withStack [1, 2]) = .next t) ∧
    firstFault (.call 7) (withStack []) = none ∧ (∃ t, exec (.call 7) (withStack []) = .next t) ∧
    firstFault .ret (coreWith small [] [] [5]) = none ∧ (∃ t, exec .ret (coreWith small [] [] [5]) = .next t) :=
  ⟨by decide, ⟨_, rfl⟩, by decide, ⟨_, rfl⟩, by decide, _, rfl⟩
/-- Two states that differ in a stale slot. -/
theorem witness_StaleSlotsAreUnobservable :
    (withStack [1]).SameVisible { withStack [1] with stk := cells 0 [1, 9] } ∧
    withStack [1] ≠ { withStack [1] with stk := cells 0 [1, 9] } := by
  refine ⟨⟨rfl, rfl, rfl, rfl, fun k hk => ?_, rfl, fun _ _ => rfl, rfl, rfl, rfl, rfl, rfl⟩, by decide⟩
  obtain rfl : k = 0 := by simpa [withStack, coreWith] using hk
  decide
theorem witness_ArrayStacksRefineSequences :
    (withCode [0x02]).run = true ∧ fetch (withCode [0x02]) = .ok .pop ∧ fetch (withCode []) = .error .invalidOpcode :=
  ⟨by decide, by rfl, by rfl⟩
theorem witness_DecodeInvertsEncode : OpcodeMap.hardware.wf = true := by decide
theorem witness_EncodeInvertsDecode : decode OpcodeMap.hardware [0x0C, 3, 9] = .ok (.store 3, [9]) := by decide
theorem witness_ProgramsDecodeToTheirInstructions : OpcodeMap.hardware.wf = true := by decide
theorem witness_OtherOpcodeBytesAreInvalid :
    OpcodeMap.hardware.opcodeOf 0x0C = some .store ∧ [(255 : Byte)].length = Op.store.format.width ∧
    (withCode [0x11]).run = true ∧ (withCode [0x11]).config.opcodes = OpcodeMap.hardware ∧
    (withCode [0x11]).pc.toNat < (withCode [0x11]).config.codeCap ∧ 0x11 ≤ ((withCode [0x11]).codeByte 0).toNat ∧
    (withCode [0x00]).codeByte 0 = 0x00 := by decide
theorem witness_OperandWidthsAreFixedByTheOpcode :
    decode OpcodeMap.hardware (0x0C :: [3, 9]) = .ok (.store 3, [9]) := by decide
theorem witness_PlacedTableWordRuns : decodeTableWord 16 0x030C = some (.store 3) := by decide
theorem witness_ResetSetsEveryPieceOfState : (List.replicate 11 (0x02 : Byte)).length ≤ small.codeCap := by decide
theorem witness_ProgramLengthLimits :
    small.codeCap < (List.replicate 12 (0x02 : Byte)).length ∧ small.wf = true := by decide
theorem witness_EveryResetMeetsTheInvariant :
    small.wf = true ∧ ∃ s, hostReset small [0x10] = .next s := ⟨by decide, _, rfl⟩

/-- A core with an entry on each stack and a word in memory. -/
def busy : State := { coreWith small [0x04] [1, 2] [5] with mem := cells 3 [42] }
theorem witness_EveryStepKeepsTheInvariant : busy.Inv ∧ ∃ t, step busy = .next t := by
  refine ⟨⟨by decide, by decide, by decide, by decide, by decide, by decide, fun k hk => ?_, by decide, by decide,
    by decide, fun h => absurd h (by decide)⟩, _, rfl⟩
  obtain rfl : k = 0 := by simpa [busy, coreWith] using hk
  decide
theorem witness_RunEndAndHaltReport :
    (withStack []).run = true ∧
    (({ withStack [] with run := false, err := true } : State).run = false ∧
      ({ withStack [] with run := false, err := true } : State).err = true) ∧
    (({ withStack [] with run := false } : State).run = false ∧ ({ withStack [] with run := false } : State).err = false ∧
      (withStack []).sp = 0) ∧ 0 < (withStack [5]).sp := by decide
theorem witness_CeilingIsNoHaltAndNoFault :
    (runUnder 1 (withCode [0x10])).run = false ∧
    StepsAvoiding (fun _ => False) 1 (withCode [0x09, 0, 0, 0, 0]) (withCode [0x09, 0, 0, 0, 0]) :=
  ⟨by decide, fun _ _ h => h, _, by rfl, rfl⟩
theorem witness_LiteralsEncodeAsOperands :
    parseLiteral ['-', '1'] = some (-1) ∧ (-2 : Int) ^ 31 ≤ -1 ∧ (-1 : Int) < 2 ^ 31 := by decide

/-- `PUSH -1`, `STORE 300` and `ADD` with their literals. -/
def items : List (Instr × Token) :=
  [(.push (-1), ['-', '1']), (.store 0x2C, ['3', '0', '0']), (.add, [])]
theorem items_spelled : ∀ item ∈ items, SpellsOperand item.1 item.2 := by
  intro item h
  simp only [items, List.mem_cons, List.not_mem_nil, or_false] at h
  rcases h with rfl | rfl | rfl
  · exact ⟨-1, by decide, by decide, by decide, by decide⟩
  · exact ⟨300, by decide, by decide⟩
  · trivial
theorem witness_AssemblyErrorsAreFatal :
    (∀ item ∈ items, SpellsOperand item.1 item.2) ∧ opOfMnemonic ['x'] = none ∧ parseLiteral ['7'] = some 7 ∧
    Op.push.format ≠ .n ∧ parseLiteral ['x'] = none ∧ Op.push.format = .i32 ∧
    parseLiteral ['9', '9', '9', '9', '9', '9', '9', '9', '9', '9'] = some 9999999999 ∧
    (2 : Int) ^ 31 ≤ 9999999999 := ⟨items_spelled, by decide⟩
theorem witness_SpelledProgramsAssemble : ∀ item ∈ items, SpellsOperand item.1 item.2 := items_spelled

end Sys2Proof.Machine.Tests
end

section
/-! PROOFS. The program counter after an instruction (10_state.md rule R26) and the state after reset (R38, R200). -/

namespace Sys2Proof.Machine

variable {s t : State}

/-! ### How many bytes decoding takes -/

theorem length_of_takeIndex_ok {o : Op} {make : Byte → Instr} {bs rest : List Byte} {i : Instr}
    (h : takeIndex o make bs = .ok (i, rest)) : bs.length = 1 + rest.length ∧ ∃ b, i = make b := by
  match bs with
  | [] => simp [takeIndex] at h
  | b :: bs =>
    obtain ⟨rfl, rfl⟩ : make b = i ∧ bs = rest := by simpa [takeIndex] using h
    exact ⟨Nat.add_comm _ _, b, rfl⟩

theorem length_of_takeWord_ok {o : Op} {make : Word → Instr} {bs rest : List Byte} {i : Instr}
    (h : takeWord o make bs = .ok (i, rest)) : bs.length = 4 + rest.length ∧ ∃ w, i = make w := by
  match bs with
  | [] | [_] | [_, _] | [_, _, _] => simp [takeWord] at h
  | b0 :: b1 :: b2 :: b3 :: bs =>
    obtain ⟨rfl, rfl⟩ : make (wordOfBytes b0 b1 b2 b3) = i ∧ bs = rest := by simpa [takeWord] using h
    exact ⟨by simp only [List.length_cons]; omega, _, rfl⟩

/-- The operand reader of an opcode answers an instruction of that opcode and takes the bytes of its format (R71,
R72). -/
theorem length_of_decodeOperand_ok {o : Op} {bs rest : List Byte} {i : Instr}
    (h : decodeOperand o bs = .ok (i, rest)) : bs.length = o.format.width + rest.length ∧ i.op = o := by
  cases o with
  | push | jmp | jz | jnz | call =>
    obtain ⟨hlen, w, rfl⟩ := length_of_takeWord_ok h
    exact ⟨hlen, rfl⟩
  | store | load =>
    obtain ⟨hlen, b, rfl⟩ := length_of_takeIndex_ok h
    exact ⟨hlen, rfl⟩
  | pop | dup | add | sub | mul | div | cmp | ret | halt =>
    cases h
    exact ⟨(Nat.zero_add _).symm, rfl⟩

/-- R71, R83: decoding takes exactly the length of the instruction it answers. -/
theorem length_of_decode_ok {m : OpcodeMap} {bs rest : List Byte} {i : Instr} (h : decode m bs = .ok (i, rest)) :
    bs.length = i.length + rest.length := by
  cases bs with
  | nil => simp [decode] at h
  | cons b bs =>
    cases ho : m.opcodeOf b with
    | none => simp [decode, ho] at h
    | some o =>
      obtain ⟨hlen, rfl⟩ := length_of_decodeOperand_ok (by simpa [decode, ho] using h)
      simp only [List.length_cons, hlen, Instr.length, Op.length]
      omega

/-- R79: a fetched instruction lies in the code buffer to its last byte. -/
theorem fetch_fits {i : Instr} (h : fetch s = .ok i) : s.pc.toNat + i.length ≤ s.config.codeCap := by
  obtain ⟨hpc, rest, hd⟩ := fetch_ok h
  have hlen := length_of_decode_ok hd
  simp only [fetchWindow, State.length_codeBytes] at hlen
  omega

theorem codeCap_le_of_wf {c : Config} (h : c.wf = true) : c.codeCap ≤ 2 ^ 31 - 1 := by
  simp only [Config.wf, Bool.and_eq_true, decide_eq_true_eq] at h
  obtain ⟨⟨_, hcap⟩, _⟩ := h
  exact hcap

theorem toNat_nextPc {o : Op} (h : s.pc.toNat + o.length < 2 ^ 32) :
    (s.nextPc o).toNat = s.pc.toNat + o.length := by
  rw [State.nextPc, BitVec.toNat_add, BitVec.toNat_ofNat, Nat.add_mod_mod, Nat.mod_eq_of_lt h]

/-- R28: `next` of a fetched instruction does not wrap. -/
theorem toNat_nextPc_of_fetch {i : Instr} (hc : s.config.wf = true) (h : fetch s = .ok i) :
    (s.nextPc i.op).toNat = s.pc.toNat + i.length := by
  have hfits := fetch_fits h
  have hcap := codeCap_le_of_wf hc
  exact toNat_nextPc (by simp only [Instr.length] at hfits; omega)

/-! ### What an instruction does: its first failing check, or its effect -/

/-- The state an instruction leaves when none of its checks fails; `exec_eq` ties it to the machine. -/
def effect (i : Instr) (s : State) : State :=
  match i with
  | .push imm => (s.push imm).setPc (s.nextPc .push)
  | .pop => s.pop.setPc (s.nextPc .pop)
  | .dup => (s.push s.top).setPc (s.nextPc .dup)
  | .add => s.replaceTwo .add (addWord s.left s.right)
  | .sub => s.replaceTwo .sub (subWord s.left s.right)
  | .mul => s.replaceTwo .mul (mulWord s.left s.right)
  | .div => s.replaceTwo .div (divWord s.left s.right)
  | .cmp => s.replaceTwo .cmp (cmpWord s.left s.right)
  | .jmp target => s.setPc target
  | .jz target => s.pop.setPc (if s.top = 0 then target else s.nextPc .jz)
  | .jnz target => s.pop.setPc (if s.top ≠ 0 then target else s.nextPc .jnz)
  | .store idx => (s.pop.memWrite idx.toNat s.top).setPc (s.nextPc .store)
  | .load idx => (s.push (s.memRead idx.toNat)).setPc (s.nextPc .load)
  | .call target => (s.cpush (s.nextPc .call)).setPc target
  | .ret => s.cpop.setPc s.ctop
  | .halt => s.clearRun.setPc (s.nextPc .halt)

@[simp] theorem firstFailing_nil : firstFailing [] = none := rfl

@[simp] theorem firstFailing_cons (fails : Bool) (c : Cause) (rest : List (Bool × Cause)) :
    firstFailing ((fails, c) :: rest) = if fails then some c else firstFailing rest := rfl

theorem translate_eq (c : Config) (idx : Byte) :
    translate c idx = if c.memSize ≤ idx.toNat then .error .memOutOfBounds else .ok idx.toNat := by
  simp [translate, toNat_zext32]

theorem binaryOp_eq (o : Op) (f : Word → Word → Word) (s : State) :
    binaryOp o f s = .next (if s.sp < 2 then s.faulted .stackUnderflow else s.replaceTwo o (f s.left s.right)) := by
  unfold binaryOp
  split <;> rfl

/-- R178, step 4: an instruction takes the fault of its first failing check, and has its effect if none fails. -/
theorem exec_eq (i : Instr) (s : State) :
    exec i s = .next ((firstFault i s).elim (effect i s) fun c => s.faulted c) := by
  unfold firstFault
  cases i with
  | push imm =>
    by_cases hfull : s.sp = s.config.stackCap <;> simp [exec, execPush, checksOf, effect, raise_eq, hfull]
  | pop =>
    by_cases hempty : s.sp = 0 <;> simp [exec, execPop, checksOf, effect, raise_eq, hempty]
  | dup =>
    by_cases hempty : s.sp = 0
    · simp [exec, execDup, checksOf, raise_eq, hempty]
    · by_cases hfull : s.config.stackCap = s.sp
      · simp [exec, execDup, checksOf, raise_eq, hempty, hfull]
      · simp [exec, execDup, checksOf, effect, hempty, Ne.symm hfull]
  | add | sub | mul | cmp =>
    by_cases htwo : s.sp < 2 <;>
      simp [exec, execAdd, execSub, execMul, execCmp, binaryOp_eq, checksOf, effect, htwo]
  | div =>
    by_cases htwo : s.sp < 2
    · simp [exec, execDiv, checksOf, raise_eq, htwo]
    · by_cases hzero : s.stk.read (s.sp - 1) = 0#32 <;>
        simp [exec, execDiv, checksOf, effect, raise_eq, State.right, State.top, htwo, hzero]
  | jmp target => rfl
  | jz target =>
    by_cases hempty : s.sp = 0 <;> simp [exec, execJz, checksOf, effect, raise_eq, hempty]
  | jnz target =>
    by_cases hempty : s.sp = 0 <;> simp [exec, execJnz, checksOf, effect, raise_eq, hempty]
  | store idx =>
    by_cases hempty : s.sp = 0
    · simp [exec, execStore, checksOf, raise_eq, hempty]
    · by_cases hout : s.config.memSize ≤ idx.toNat <;>
        simp [exec, execStore, checksOf, effect, raise_eq, translate_eq, hempty, hout]
  | load idx =>
    by_cases hfull : s.sp = s.config.stackCap
    · simp [exec, execLoad, checksOf, raise_eq, hfull]
    · by_cases hout : s.config.memSize ≤ idx.toNat <;>
        simp [exec, execLoad, checksOf, effect, raise_eq, translate_eq, hfull, hout]
  | call target =>
    by_cases hfull : s.csp = s.config.callCap <;> simp [exec, execCall, checksOf, effect, raise_eq, hfull]
  | ret =>
    by_cases hempty : s.csp = 0 <;> simp [exec, execRet, checksOf, effect, raise_eq, hempty]
  | halt => rfl

theorem exec_next_of_fault {i : Instr} {c : Cause} (h : exec i s = .next t) (hf : firstFault i s = some c) :
    t = s.faulted c := by
  simpa [exec_eq, hf, eq_comm] using h

theorem exec_next_of_no_fault {i : Instr} (h : exec i s = .next t) (hf : firstFault i s = none) :
    t = effect i s := by
  simpa [exec_eq, hf, eq_comm] using h

/-- R26: an instruction that completes leaves `PC` at its target, or at `next` if it writes none. -/
theorem effect_pc (i : Instr) (s : State) : (effect i s).pc = (targetOf i s).getD (s.nextPc i.op) := by
  cases i with
  | jz target | jnz target =>
    by_cases hzero : s.stk.read (s.sp - 1) = 0#32 <;> simp [effect, targetOf, State.top, hzero, Instr.op]
  | _ => rfl

/-- Settles O35: a fault keeps `PC`, a completed instruction leaves it at its target or at `next`, and `next` of a
fetched instruction lies within the code buffer, so it does not wrap. -/
theorem pcHoldsTargetOrNext : Obligations.PcHoldsTargetOrNext := by
  intro s t i hwf hfetch hexec
  refine ⟨fun c hf => ?_, fun hf target ht => ?_, fun hf ht => ?_⟩
  · rw [exec_next_of_fault hexec hf, State.faulted_pc]
  · rw [exec_next_of_no_fault hexec hf, effect_pc, ht, Option.getD_some]
  · rw [exec_next_of_no_fault hexec hf, effect_pc, ht, Option.getD_none, toNat_nextPc_of_fetch hwf hfetch,
      Instr.length, Op.length, Nat.add_assoc]

/-! ### Reset -/

/-- R200: the reset of a core with a program that fits. -/
theorem hostReset_of_fits {c : Config} {program : List Byte} (h : program.length ≤ c.codeCap) :
    hostReset c program = .next { State.reset with config := c, code := placeBytes c.codeCap [] 0 program } := by
  simp [hostReset, Config.accepts, h]

/-- R36, R200: an empty code buffer holds the program placed at address 0, and 0 after it. -/
theorem read_placeBytes_empty {cap : Nat} {program : List Byte} (h : program.length ≤ cap) (a : Nat) :
    (placeBytes cap [] 0 program).read a = program[a]?.getD 0 := by
  rw [read_placeBytes program [] 0 a (by omega)]
  by_cases ha : a < program.length <;> simp [ha]

/-- Settles O50: the reset state's fields are written out in R38, and its code buffer is the program placed in an
empty one. -/
theorem resetSetsEveryPieceOfState : Obligations.ResetSetsEveryPieceOfState := by
  intro c program hfits
  refine ⟨_, hostReset_of_fits hfits, rfl, fun a ha => ?inProgram, fun a ha => ?afterProgram, rfl, fun _ => rfl, rfl,
    fun _ => rfl, rfl, fun _ => rfl, rfl, rfl, rfl, rfl⟩
  case inProgram => simp [State.codeByte, read_placeBytes_empty hfits, ha]
  case afterProgram => simp [State.codeByte, read_placeBytes_empty hfits, ha]

end Sys2Proof.Machine
end

section
/-! PROOFS. The operands of 20_memory.md: the 4-byte operand (rule R51) and the memory address translator (R56). -/

namespace Sys2Proof.Machine

/-! ### The word of four bytes -/

theorem toNat_append_byte {n : Nat} (high : BitVec n) (low : Byte) :
    (high ++ low).toNat = low.toNat + 2 ^ 8 * high.toNat := by
  rw [BitVec.toNat_append, ← Nat.shiftLeft_add_eq_or_of_lt low.isLt, Nat.shiftLeft_eq]
  omega

theorem toNat_wordOfBytes (b0 b1 b2 b3 : Byte) :
    (wordOfBytes b0 b1 b2 b3).toNat = b0.toNat + 2 ^ 8 * b1.toNat + 2 ^ 16 * b2.toNat + 2 ^ 24 * b3.toNat := by
  simp only [wordOfBytes, toNat_append_byte]
  omega

/-- R51: the byte at the highest address holds the sign. -/
theorem toInt_wordOfBytes_neg (b0 b1 b2 b3 : Byte) : (wordOfBytes b0 b1 b2 b3).toInt < 0 ↔ 128 ≤ b3.toNat := by
  rw [BitVec.toInt_neg_iff, toNat_wordOfBytes]
  omega

/-- The other direction of `wordOfBytes_bytesOfWord`: byte `k` is the value's digit at `2 ^ (8 * k)`. -/
theorem bytesOfWord_wordOfBytes (b0 b1 b2 b3 : Byte) : bytesOfWord (wordOfBytes b0 b1 b2 b3) = [b0, b1, b2, b3] := by
  simp only [bytesOfWord, List.cons.injEq, and_true, ← BitVec.toNat_inj, BitVec.extractLsb'_toNat,
    toNat_wordOfBytes, Nat.shiftRight_eq_div_pow]
  refine ⟨?_, ?_, ?_, ?_⟩ <;> omega

/-- R74, R83: the byte that a well-formed map gives an opcode decodes to that opcode, its operand read next. -/
theorem decode_byteOf {m : OpcodeMap} (h : m.wf = true) (o : Op) (bs : List Byte) :
    decode m (m.byteOf o :: bs) = decodeOperand o bs := by
  simp only [decode, OpcodeMap.opcodeOf_byteOf h]

/-- Settles O48: the value gives the sign and the bytes back, and the five opcodes of format I32 read their operand
through `wordOfBytes`. -/
theorem wordOperandsAreLittleEndian : Obligations.WordOperandsAreLittleEndian := by
  intro b0 b1 b2 b3
  have operandOf (o : Op) (rest : List Byte) :=
    decode_byteOf OpcodeMap.hardware_wf o (b0 :: b1 :: b2 :: b3 :: rest)
  exact ⟨toNat_wordOfBytes b0 b1 b2 b3, toInt_wordOfBytes_neg b0 b1 b2 b3, bytesOfWord_wordOfBytes b0 b1 b2 b3,
    fun rest => ⟨operandOf .push rest, operandOf .jmp rest, operandOf .jz rest, operandOf .jnz rest,
      operandOf .call rest⟩⟩

/-! ### The translator -/

/-- Settles O19: both ranges are the two laws of `translate`, which leave no third answer. -/
theorem translatorIsABoundedIdentity : Obligations.TranslatorIsABoundedIdentity := by
  intro c idx
  exact ⟨fun inside => translate_ok.2 ⟨inside, rfl⟩, fun outside => translate_error.2 ⟨outside, rfl⟩⟩

end Sys2Proof.Machine
end

section
/-! PROOFS. The cycle (30_encoding.md rules R77 to R81), the opcode bytes and the operand widths (R71 to R76). -/

namespace Sys2Proof.Machine

variable {s : State}

/-! ### The operand reader: the opcode's own number of bytes, or a truncated operand -/

theorem takeIndex_of_length {bs : List Byte} (o : Op) (make : Byte → Instr) (h : 1 ≤ bs.length) :
    ∃ i rest, takeIndex o make bs = .ok (i, rest) := by
  match bs with
  | b :: bs => exact ⟨_, _, rfl⟩

theorem takeWord_of_length {bs : List Byte} (o : Op) (make : Word → Instr) (h : 4 ≤ bs.length) :
    ∃ i rest, takeWord o make bs = .ok (i, rest) := by
  match bs with
  | b0 :: b1 :: b2 :: b3 :: bs => exact ⟨_, _, rfl⟩

/-- R76: no value of an operand is invalid; as many bytes as the opcode's width are an operand. -/
theorem decodeOperand_of_length {o : Op} {bs : List Byte} (h : o.format.width ≤ bs.length) :
    ∃ i rest, decodeOperand o bs = .ok (i, rest) := by
  cases o with
  | push | jmp | jz | jnz | call => exact takeWord_of_length _ _ h
  | store | load => exact takeIndex_of_length _ _ h
  | pop | dup | add | sub | mul | div | cmp | ret | halt => exact ⟨_, _, rfl⟩

theorem takeWord_of_short {bs : List Byte} (o : Op) (make : Word → Instr) (h : bs.length < 4) :
    takeWord o make bs = .error (.truncatedOperand o) := by
  match bs with
  | [] | [_] | [_, _] | [_, _, _] => rfl
  | _ :: _ :: _ :: _ :: _ => simp only [List.length_cons] at h; omega

theorem takeIndex_of_short {bs : List Byte} (o : Op) (make : Byte → Instr) (h : bs.length < 1) :
    takeIndex o make bs = .error (.truncatedOperand o) := by
  match bs with
  | [] => rfl

/-- R79: fewer bytes than the opcode's width are no operand. -/
theorem decodeOperand_of_short {o : Op} {bs : List Byte} (h : bs.length < o.format.width) :
    decodeOperand o bs = .error (.truncatedOperand o) := by
  cases o with
  | push | jmp | jz | jnz | call => exact takeWord_of_short _ _ h
  | store | load => exact takeIndex_of_short _ _ h
  | pop | dup | add | sub | mul | div | cmp | ret | halt => exact absurd h (Nat.not_lt_zero _)

/-! ### The decoder, by the opcode of the first byte -/

theorem decode_cons_of_none {m : OpcodeMap} {b : Byte} (h : m.opcodeOf b = none) (bs : List Byte) :
    decode m (b :: bs) = .error (.invalidOpcode b) := by
  simp [decode, h]

theorem decode_cons_of_some {m : OpcodeMap} {b : Byte} {o : Op} (h : m.opcodeOf b = some o) (bs : List Byte) :
    decode m (b :: bs) = decodeOperand o bs := by
  simp [decode, h]

/-- What decodes starts with the byte of its own opcode, the operand after it. -/
theorem decode_cons_ok {m : OpcodeMap} {b : Byte} {bs rest : List Byte} {i : Instr}
    (h : decode m (b :: bs) = .ok (i, rest)) :
    m.opcodeOf b = some i.op ∧ bs.length = i.op.format.width + rest.length := by
  cases ho : m.opcodeOf b with
  | none => simp [decode_cons_of_none ho] at h
  | some o =>
    rw [decode_cons_of_some ho] at h
    obtain ⟨hlen, rfl⟩ := length_of_decodeOperand_ok h
    exact ⟨rfl, hlen⟩

/-- R76: the rejection as invalid looks at the first byte alone, for an operand can only be truncated. -/
theorem decode_cons_invalid_iff {m : OpcodeMap} {b : Byte} {bs : List Byte} :
    decode m (b :: bs) = .error (.invalidOpcode b) ↔ m.opcodeOf b = none := by
  refine ⟨fun h => ?_, fun h => decode_cons_of_none h bs⟩
  cases ho : m.opcodeOf b with
  | none => rfl
  | some o =>
    rw [decode_cons_of_some ho] at h
    rcases Nat.lt_or_ge bs.length o.format.width with hshort | hlong
    · simp [decodeOperand_of_short hshort] at h
    · obtain ⟨i, rest, hok⟩ := decodeOperand_of_length hlong
      simp [hok] at h

/-- R74, R76: the sixteen opcode bytes of this hardware are 0x01 to 0x10. -/
theorem opcodeOf_hardware_none_iff (b : Byte) :
    OpcodeMap.hardware.opcodeOf b = none ↔ b = 0x00 ∨ 0x11 ≤ b.toNat := by
  simp only [OpcodeMap.opcodeOf, Op.all, OpcodeMap.byteOf, OpcodeMap.hardware, List.find?_eq_none, List.forall_mem_cons,
    List.not_mem_nil, false_imp_iff, implies_true, and_true, beq_iff_eq, ← BitVec.toNat_inj, BitVec.ofNat_eq_ofNat,
    BitVec.toNat_ofNat]
  omega

/-! ### The fetch, in the order of R81 -/

/-- R78. -/
theorem fetch_of_pc_outside (h : s.config.codeCap ≤ s.pc.toNat) : fetch s = .error .pcOutOfBounds := by
  simp [fetch, h]

/-- With `PC` in range the fetch decodes the byte there and the bytes after it, as far as the buffer goes. -/
theorem fetchWindow_eq_cons (h : s.pc.toNat < s.config.codeCap) :
    fetchWindow s = s.codeByte s.pc.toNat ::
      s.codeBytes (s.pc.toNat + 1) (min 4 (s.config.codeCap - (s.pc.toNat + 1))) := by
  rw [fetchWindow, ← State.codeBytes_succ, maxLength]
  congr 1
  omega

theorem fetch_of_decode_error {e : DecodeError} (hpc : s.pc.toNat < s.config.codeCap)
    (hd : decode s.config.opcodes (fetchWindow s) = .error e) : fetch s = .error (causeOfDecodeError e) := by
  simp [fetch, Nat.not_le.2 hpc, hd]

theorem fetch_of_decode_ok {i : Instr} {rest : List Byte} (hpc : s.pc.toNat < s.config.codeCap)
    (hd : decode s.config.opcodes (fetchWindow s) = .ok (i, rest)) : fetch s = .ok i := by
  simp [fetch, Nat.not_le.2 hpc, hd]

/-- R76. -/
theorem fetch_of_invalid_opcode (hpc : s.pc.toNat < s.config.codeCap)
    (ho : s.config.opcodes.opcodeOf (s.codeByte s.pc.toNat) = none) : fetch s = .error .invalidOpcode :=
  fetch_of_decode_error (e := .invalidOpcode (s.codeByte s.pc.toNat)) hpc
    (by rw [fetchWindow_eq_cons hpc, decode_cons_of_none ho])

/-- R79. -/
theorem fetch_of_operand_outside {o : Op} (hpc : s.pc.toNat < s.config.codeCap)
    (ho : s.config.opcodes.opcodeOf (s.codeByte s.pc.toNat) = some o)
    (hout : s.config.codeCap < s.pc.toNat + 1 + o.format.width) : fetch s = .error .pcOutOfBounds := by
  refine fetch_of_decode_error (e := .truncatedOperand o) hpc ?_
  rw [fetchWindow_eq_cons hpc, decode_cons_of_some ho, decodeOperand_of_short]
  rw [State.length_codeBytes]
  omega

theorem setWidth_zext32 (b : Byte) : (zext32 b).setWidth 8 = b := by
  simp [zext32]

/-- R73: from code bytes that hold the operand, the reader's instruction is the opcode's with the operand that R81
reads. -/
theorem decodeOperand_codeBytes {o : Op} {n : Nat} (s : State) (p : Nat) (h : o.format.width ≤ n) :
    ∃ rest, decodeOperand o (s.codeBytes p n) = .ok (instrOf o (s.operandAt o p), rest) := by
  obtain ⟨k, rfl⟩ := Nat.exists_eq_add_of_le' h
  cases o with
  | push | jmp | jz | jnz | call =>
    exact ⟨s.codeBytes (p + 4) k, by
      simp [Op.format, Format.width, State.codeBytes_succ, decodeOperand, takeWord, instrOf, State.operandAt,
        State.codeRead4, wordOfBytes]⟩
  | store | load =>
    exact ⟨s.codeBytes (p + 1) k, by
      simp [Op.format, Format.width, State.codeBytes_succ, decodeOperand, takeIndex, instrOf, State.operandAt,
        setWidth_zext32]⟩
  | pop | dup | add | sub | mul | div | cmp | ret | halt => exact ⟨_, rfl⟩

theorem width_format_le (f : Format) : f.width ≤ 4 := by cases f <;> decide

/-- R81, to its last line: `PC`, opcode and operand in range. -/
theorem fetch_of_in_range {o : Op} (ho : s.config.opcodes.opcodeOf (s.codeByte s.pc.toNat) = some o)
    (hin : s.pc.toNat + 1 + o.format.width ≤ s.config.codeCap) :
    fetch s = .ok (instrOf o (s.operandAt o (s.pc.toNat + 1))) := by
  have hpc : s.pc.toNat < s.config.codeCap := by omega
  have hwidth := width_format_le o.format
  obtain ⟨rest, hok⟩ := decodeOperand_codeBytes (o := o) s (s.pc.toNat + 1)
    (n := min 4 (s.config.codeCap - (s.pc.toNat + 1))) (by omega)
  exact fetch_of_decode_ok hpc (by rw [fetchWindow_eq_cons hpc, decode_cons_of_some ho, hok])

/-! ### The step -/

theorem step_of_fetch_error {c : Cause} (hrun : s.run = true) (hf : fetch s = .error c) : step s = raise c s := by
  simp [step, hrun, hf]

theorem step_of_fetch_ok {i : Instr} (hrun : s.run = true) (hf : fetch s = .ok i) : step s = exec i s := by
  simp [step, hrun, hf]

/-- R77. -/
theorem step_ne_next_of_stopped (hrun : s.run = false) (t : State) : step s ≠ .next t := by
  intro h
  obtain ⟨hrun', _⟩ := step_next h
  simp [hrun] at hrun'

/-- R81: each line of the written cycle is one answer of the fetch. -/
theorem step_eq_cycleAsWritten (hrun : s.run = true) : step s = cycleAsWritten s := by
  unfold cycleAsWritten
  by_cases hpc : s.config.codeCap ≤ s.pc.toNat
  · simp [hpc, step_of_fetch_error hrun (fetch_of_pc_outside hpc)]
  · cases ho : s.config.opcodes.opcodeOf (s.codeByte s.pc.toNat) with
    | none => simp [hpc, ho, step_of_fetch_error hrun (fetch_of_invalid_opcode (by omega) ho)]
    | some o =>
      by_cases hout : s.config.codeCap < s.pc.toNat + 1 + o.format.width
      · simp [hpc, ho, hout, step_of_fetch_error hrun (fetch_of_operand_outside (by omega) ho hout)]
      · simp [hpc, ho, hout, step_of_fetch_ok hrun (fetch_of_in_range ho (by omega))]

/-- Settles O32: the fetch answers as each line of the cycle says, and no step comes with `RUN` = 0. -/
theorem stepIsTheWrittenCycle : Obligations.StepIsTheWrittenCycle :=
  fun _ => ⟨step_eq_cycleAsWritten, step_ne_next_of_stopped⟩

/-- Settles O33: a fault of the fetch is taken, and every instruction answers a next state (`exec_eq`). -/
theorem onlyARunningCoreSteps : Obligations.OnlyARunningCoreSteps := by
  refine fun s => ⟨fun hrun => ?_, step_ne_next_of_stopped⟩
  cases hf : fetch s with
  | error c => exact ⟨_, step_of_fetch_error hrun hf⟩
  | ok i => exact ⟨_, (step_of_fetch_ok hrun hf).trans (exec_eq i s)⟩

/-! ### The opcode bytes and the operand widths -/

/-- Settles O46: the map's bytes are 0x01 to 0x10, an operand of the opcode's width decodes with nothing left, and the
fetch of another byte faults. -/
theorem otherOpcodeBytesAreInvalid : Obligations.OtherOpcodeBytesAreInvalid := by
  refine ⟨fun b rest => decode_cons_invalid_iff.trans (opcodeOf_hardware_none_iff b), fun b o operand ho hlen => ?_,
    fun s hrun hmap hpc hbyte => ?_⟩
  · obtain ⟨i, rest, hok⟩ := decodeOperand_of_length hlen.ge
    obtain ⟨htaken, hop⟩ := length_of_decodeOperand_ok hok
    obtain rfl : rest = [] := List.eq_nil_of_length_eq_zero (by omega)
    exact ⟨i, hop, (decode_cons_of_some ho operand).trans hok⟩
  · have hnone := (opcodeOf_hardware_none_iff _).2 hbyte
    exact step_of_fetch_error hrun (fetch_of_invalid_opcode hpc (hmap ▸ hnone))

/-- R71. -/
theorem length_op_cases (o : Op) : o.length = 1 ∨ o.length = 2 ∨ o.length = 5 := by
  unfold Op.length
  cases o.format <;> decide

/-- Settles O47: the table of R75 row by row, and what `decode_cons_ok` says of whatever decodes. -/
theorem operandWidthsAreFixedByTheOpcode : Obligations.OperandWidthsAreFixedByTheOpcode := by
  refine ⟨fun o => by cases o <;> rfl, fun m b bytes rest i h => ?_⟩
  obtain ⟨hop, hlen⟩ := decode_cons_ok h
  exact ⟨hop, hlen, length_op_cases i.op⟩

end Sys2Proof.Machine
end

section
/-! PROOFS. The assembler's operands and its output (30_encoding.md rule R85). -/

namespace Sys2Proof.Machine

theorem opOfMnemonic_mnemonic (o : Op) : opOfMnemonic (mnemonic o) = some o := by cases o <;> decide

/-- R84: an opcode with a 4-byte operand takes the next token for it. -/
theorem parseTokens_word {o : Op} {make : Word → Instr} {literal : Token} {w : Word} (ho : written o = .word make)
    (hw : wordOperand literal = .ok w) (rest : List Token) :
    parseTokens (mnemonic o :: literal :: rest) = (parseTokens rest).map (make w :: ·) := by
  simp [parseTokens, opOfMnemonic_mnemonic, ho, hw]

/-- R84: an opcode with a 1-byte operand takes the next token for it. -/
theorem parseTokens_index {o : Op} {make : Byte → Instr} {literal : Token} {b : Byte} (ho : written o = .index make)
    (hb : indexOperand literal = .ok b) (rest : List Token) :
    parseTokens (mnemonic o :: literal :: rest) = (parseTokens rest).map (make b :: ·) := by
  simp [parseTokens, opOfMnemonic_mnemonic, ho, hb]

theorem indexOperand_of_literal {literal : Token} {n : Int} (h : parseLiteral literal = some n) :
    indexOperand literal = .ok (BitVec.ofInt 8 n) := by
  simp [indexOperand, h]

theorem wordOperand_of_literal {literal : Token} {n : Int} (h : parseLiteral literal = some n) (hlow : -2 ^ 31 ≤ n)
    (hhigh : n < 2 ^ 31) : wordOperand literal = .ok (BitVec.ofInt 32 n) := by
  simp only [wordOperand, h, if_pos (And.intro hlow hhigh)]

/-- R85: "truncated, not rejected". -/
theorem toNat_ofInt_byte (n : Int) : ((BitVec.ofInt 8 n).toNat : Int) = n % 256 := by
  rw [BitVec.toNat_ofInt]
  omega

/-- R85: the output of two lists in order is their outputs in order. -/
theorem encodeProgram_append (m : OpcodeMap) (is js : List Instr) :
    encodeProgram m (is ++ js) = encodeProgram m is ++ encodeProgram m js := by
  induction is with
  | nil => rfl
  | cons i is ih => simp [encodeProgram, ih]

/-- Settles O58: the operand of a literal is its low 8 bits or its word, whichever opcode it stands after, and encoding
goes instruction by instruction. -/
theorem literalsEncodeAsOperands : Obligations.LiteralsEncodeAsOperands := by
  refine ⟨fun literal n hn => ?index, fun literal n hn hlow hhigh => ?word, fun m i => ⟨length_encode m i, rfl⟩,
    encodeProgram_append⟩
  case index =>
    have hb := indexOperand_of_literal hn
    exact ⟨_, toNat_ofInt_byte n, parseTokens_index (o := .store) rfl hb [], parseTokens_index (o := .load) rfl hb [],
      fun _ => rfl⟩
  case word =>
    have hw := wordOperand_of_literal hn hlow hhigh
    have parsed {o : Op} {make : Word → Instr} (ho : written o = .word make) := parseTokens_word ho hw []
    exact ⟨_, BitVec.toInt_ofInt_eq_self (by decide) hlow hhigh, parsed (o := .push) rfl, parsed (o := .jmp) rfl,
      parsed (o := .jz) rfl, parsed (o := .jnz) rfl, parsed (o := .call) rfl,
      fun _ => ⟨rfl, rfl, rfl, rfl, rfl, rfl⟩⟩

end Sys2Proof.Machine
end

section
/-! PROOFS. The stack instructions and the bounds of the operand stack (40_stack.md rules R100 to R103). -/

namespace Sys2Proof.Machine

variable {s : State} {i : Instr}

/-! ### What an instruction answers, given its first failing check -/

theorem exec_of_fault {c : Cause} (hf : firstFault i s = some c) : exec i s = .next (s.faulted c) := by
  simp [exec_eq, hf]

theorem exec_of_no_fault (hf : firstFault i s = none) : exec i s = .next (effect i s) := by
  simp [exec_eq, hf]

/-! ### The bounds of the operand stack -/

theorem pushCount_le_one (i : Instr) : pushCount i ≤ 1 := by cases i <;> simp [pushCount]

/-- R39: the depth that a completed instruction leaves. -/
theorem effect_sp (i : Instr) (s : State) : (effect i s).sp = s.sp - popCount i + pushCount i := by
  cases i <;> rfl

/-- What a completed instruction writes to the operand stack lies below the depth it leaves. -/
theorem effect_stk_above {k : Nat} (h : (effect i s).sp ≤ k) : (effect i s).stk.read k = s.stk.read k := by
  rw [effect_sp] at h
  cases i with
  | push | dup | load =>
    exact Memory.read_write_other s.stk _ (show k ≠ s.sp by simp only [popCount, pushCount] at h; omega)
  | add | sub | mul | div | cmp =>
    exact Memory.read_write_other s.stk _ (show k ≠ s.sp - 2 by simp only [popCount, pushCount] at h; omega)
  | pop | jmp | jz | jnz | store | call | ret | halt => rfl

/-- R103, underflow: an instruction whose checks pass finds every entry it pops. -/
theorem popCount_le_sp_of_no_fault (hf : firstFault i s = none) : popCount i ≤ s.sp := by
  cases i with
  | pop | jz | jnz | store =>
    have hsome : s.sp ≠ 0 := fun hempty => by simp [firstFault, checksOf, hempty] at hf
    exact Nat.one_le_iff_ne_zero.2 hsome
  | add | sub | mul | div | cmp =>
    have htwo : ¬ s.sp < 2 := fun hless => by simp [firstFault, checksOf, hless] at hf
    exact Nat.not_lt.1 htwo
  | push | dup | jmp | load | call | ret | halt => exact Nat.zero_le _

/-- R103, overflow: an instruction that pushes more than it pops, and whose checks pass, finds the stack not full. -/
theorem sp_ne_stackCap_of_no_fault (hf : firstFault i s = none) (hgrows : popCount i < pushCount i) :
    s.sp ≠ s.config.stackCap := by
  intro hfull
  cases i with
  | push | load => simp [firstFault, checksOf, hfull] at hf
  | dup => by_cases hempty : s.config.stackCap = 0 <;> simp [firstFault, checksOf, hfull, hempty] at hf
  | pop | add | sub | mul | div | cmp | jmp | jz | jnz | store | call | ret | halt =>
    simp [popCount, pushCount] at hgrows

theorem effect_sp_le_stackCap (hsp : s.sp ≤ s.config.stackCap) (hf : firstFault i s = none) :
    (effect i s).sp ≤ s.config.stackCap := by
  have hpush := pushCount_le_one i
  have hpop := popCount_le_sp_of_no_fault hf
  have hroom := sp_ne_stackCap_of_no_fault hf
  rw [effect_sp]
  omega

/-- Settles O4: a fault keeps the operand stack, and an instruction whose checks pass writes below the depth it leaves,
which is at most `STACK_CAP`. -/
theorem stackMutationsStayInBounds : Obligations.StackMutationsStayInBounds := by
  intro i s t hsp hexec
  cases hf : firstFault i s with
  | none =>
    obtain rfl := exec_next_of_no_fault hexec hf
    have hbound := effect_sp_le_stackCap hsp hf
    exact ⟨hbound, fun k hk => effect_stk_above (hbound.trans hk), fun _ => popCount_le_sp_of_no_fault hf, nofun⟩
  | some c =>
    obtain rfl := exec_next_of_fault hexec hf
    exact ⟨hsp, fun _ _ => rfl, nofun, fun _ _ => ⟨rfl, rfl⟩⟩

/-! ### PUSH, POP, DUP -/

/-- R12: `Push(v)` writes the slot at `SP` and no other. -/
theorem writesStackSlot_push (s : State) (v pc : Word) :
    WritesStackSlot s ((s.push v).setPc pc) s.sp v (s.sp + 1) pc :=
  ⟨rfl, Memory.read_write_same s.stk s.sp v, fun _ hk => Memory.read_write_other s.stk v hk⟩

/-- Settles O1: the operand is the word of its four bytes, and PUSH has one check. -/
theorem pushPushesItsConstant : Obligations.PushPushesItsConstant := by
  refine ⟨fun i0 i1 i2 i3 rest => decode_byteOf OpcodeMap.hardware_wf .push (i0 :: i1 :: i2 :: i3 :: rest),
    fun imm s => ⟨fun hfull => exec_of_fault ?_,
      fun hroom => ⟨_, exec_of_no_fault ?_, writesStackSlot_push s imm _⟩⟩⟩
  · simp [firstFault, checksOf, hfull]
  · simp [firstFault, checksOf, hroom]

/-- Settles O2: POP has one check, and its effect leaves the slots alone. -/
theorem popDiscardsTheTop : Obligations.PopDiscardsTheTop := by
  refine ⟨decode_byteOf OpcodeMap.hardware_wf .pop,
    fun s => ⟨fun hempty => exec_of_fault ?_, fun hsome => exec_of_no_fault ?_⟩⟩
  · simp [firstFault, checksOf, hempty]
  · simp [firstFault, checksOf, hsome]

/-- Settles O3: DUP has two checks, underflow first, and pushes the top. -/
theorem dupCopiesTheTop : Obligations.DupCopiesTheTop := by
  refine ⟨decode_byteOf OpcodeMap.hardware_wf .dup,
    fun s => ⟨fun hempty => exec_of_fault ?_, fun hsome hfull => exec_of_fault ?_,
      fun hsome hroom => ⟨_, exec_of_no_fault ?_, writesStackSlot_push s s.top _⟩⟩⟩
  · simp [firstFault, checksOf, hempty]
  · simp [firstFault, checksOf, hfull, hfull ▸ hsome]
  · simp [firstFault, checksOf, hsome, hroom]

end Sys2Proof.Machine
end

section
/-! PROOFS. The arithmetic instructions (41_arithmetic.md rules R110 to R115). -/

namespace Sys2Proof.Machine

variable {s t : State} {i : Instr} {f : Int → Int → Int}

/-! ### The integer operation of an arithmetic instruction -/

/-- R110 to R114: what an arithmetic instruction computes on signed integers before the result is narrowed; `none` for
the other instructions. `effect_of_integerOperation` ties it to the machine. -/
def integerOperation : Instr → Option (Int → Int → Int)
  | .add => some fun a b => a + b
  | .sub => some fun a b => a - b
  | .mul => some fun a b => a * b
  | .div => some fun a b => Int.tdiv a b
  | .cmp => some fun a b => if a < b then 1 else 0
  | .push _ | .pop | .dup | .jmp _ | .jz _ | .jnz _ | .store _ | .load _ | .call _ | .ret | .halt => none

theorem wrap32_ite_one_zero (p : Prop) [Decidable p] : wrap32 (if p then 1 else 0) = if p then 1 else 0 := by
  split <;> rfl

/-- R115: an arithmetic instruction that completes puts its operation's narrowed result in the place of `a` and `b`. -/
theorem effect_of_integerOperation (h : integerOperation i = some f) (s : State) :
    effect i s = s.replaceTwo i.op (wrap32 (f s.left.toInt s.right.toInt)) := by
  cases i with
  | add | sub | mul => cases h; rfl
  | div => cases h; simp only [effect, divWord, tdiv_eq, Instr.op]
  | cmp => cases h; simp only [effect, cmpWord, wrap32_ite_one_zero, Instr.op]
  | push | pop | dup | jmp | jz | jnz | store | load | call | ret | halt => cases h

theorem nextPc_of_integerOperation (h : integerOperation i = some f) (s : State) : s.nextPc i.op = s.pc + 1 := by
  cases i with
  | add | sub | mul | div | cmp => rfl
  | push | pop | dup | jmp | jz | jnz | store | load | call | ret | halt => cases h

/-! ### Its checks: two entries, and for DIV a divisor other than 0 -/

theorem firstFault_of_lt_two (h : integerOperation i = some f) (hless : s.sp < 2) :
    firstFault i s = some .stackUnderflow := by
  cases i with
  | add | sub | mul | div | cmp => simp [firstFault, checksOf, hless]
  | push | pop | dup | jmp | jz | jnz | store | load | call | ret | halt => cases h

theorem firstFault_of_two_le (h : integerOperation i = some f) (htwo : 2 ≤ s.sp)
    (hdivisor : i = .div → s.stk.read (s.sp - 1) ≠ 0) : firstFault i s = none := by
  cases i with
  | add | sub | mul | cmp => simp [firstFault, checksOf, Nat.not_lt.2 htwo]
  | div => simpa [firstFault, checksOf, Nat.not_lt.2 htwo] using hdivisor rfl
  | push | pop | dup | jmp | jz | jnz | store | load | call | ret | halt => cases h

theorem firstFault_div_of_zero (htwo : 2 ≤ s.sp) (hzero : s.stk.read (s.sp - 1) = 0) :
    firstFault .div s = some .divByZero := by
  simp [firstFault, checksOf, Nat.not_lt.2 htwo, hzero]

/-! ### What it answers -/

theorem exec_of_lt_two (h : integerOperation i = some f) (hless : s.sp < 2) :
    exec i s = .next (s.faulted .stackUnderflow) :=
  exec_of_fault (firstFault_of_lt_two h hless)

/-- R115: replacing two entries writes the lower one's slot and no other. -/
theorem writesStackSlot_replaceTwo (o : Op) (v : Word) (htwo : 2 ≤ s.sp) :
    WritesStackSlot s (s.replaceTwo o v) (s.sp - 2) v (s.sp - 1) (s.nextPc o) := by
  rw [State.replaceTwo_eq o v htwo]
  exact ⟨rfl, Memory.read_write_same s.stk _ v, fun _ hk => Memory.read_write_other s.stk v hk⟩

/-- R110 to R114: an arithmetic instruction whose checks pass completes, with its frame. -/
theorem exec_of_two_le (h : integerOperation i = some f) (htwo : 2 ≤ s.sp)
    (hdivisor : i = .div → s.stk.read (s.sp - 1) ≠ 0) :
    ∃ t, exec i s = .next t ∧ WritesStackSlot s t (s.sp - 2)
      (wrap32 (f (s.stk.read (s.sp - 2)).toInt (s.stk.read (s.sp - 1)).toInt)) (s.sp - 1) (s.pc + 1) := by
  refine ⟨_, exec_of_no_fault (firstFault_of_two_le h htwo hdivisor), ?_⟩
  rw [effect_of_integerOperation h, ← nextPc_of_integerOperation h]
  exact writesStackSlot_replaceTwo i.op _ htwo

/-! ### The stack as a sequence -/

theorem entries_eq_cons_cons {m : Memory 32} {n : Nat} {a b : Word} {rest : List Word}
    (h : entries m n = b :: a :: rest) :
    2 ≤ n ∧ m.read (n - 1) = b ∧ m.read (n - 2) = a ∧ entries m (n - 2) = rest := by
  match n with
  | 0 | 1 => simp [entries] at h
  | n + 2 => simpa [entries] using h

/-- A slot written with the pointer just above it is the head of the sequence, over what was below it. -/
theorem entries_of_writesStackSlot {slot : Nat} {v pc : Word} (h : WritesStackSlot s t slot v (slot + 1) pc) :
    entries t.stk t.sp = v :: entries s.stk slot := by
  obtain ⟨ht, hslot, hothers⟩ := h
  have hsp : t.sp = slot + 1 := congrArg State.sp ht
  have hbelow : entries t.stk slot = entries s.stk slot := entries_congr fun k hk => hothers k (Nat.ne_of_lt hk)
  rw [hsp, entries, hslot, hbelow]

/-- Settles O10: the five instructions are those with an integer operation, and the slot that `exec_of_two_le` writes is
the head of the sequence left. -/
theorem binaryOperationsTakeLeftBelowRight : Obligations.BinaryOperationsTakeLeftBelowRight := by
  intro s i f hop
  have h : integerOperation i = some f := by
    rcases hop with ⟨rfl, rfl⟩ | ⟨rfl, rfl⟩ | ⟨rfl, rfl⟩ | ⟨rfl, rfl⟩ | ⟨rfl, rfl⟩ <;> rfl
  refine ⟨fun b a rest hstack hdivisor => ?_, fun hless => ?_⟩
  · obtain ⟨htwo, rfl, rfl, rfl⟩ := entries_eq_cons_cons hstack
    obtain ⟨t, hexec, hwrites⟩ := exec_of_two_le h htwo hdivisor
    rw [show s.sp - 1 = s.sp - 2 + 1 by omega] at hwrites ⊢
    exact ⟨t, hexec, entries_of_writesStackSlot hwrites⟩
  · rw [length_entries] at hless
    exact ⟨_, exec_of_lt_two h hless, rfl, rfl⟩

/-! ### ADD, SUB, MUL, DIV, CMP -/

/-- Settles O5: the opcode byte, and what `exec_of_lt_two` and `exec_of_two_le` say of the sum. -/
theorem addPushesTheWrappedSum : Obligations.AddPushesTheWrappedSum :=
  ⟨decode_byteOf OpcodeMap.hardware_wf .add,
    fun _ => ⟨exec_of_lt_two rfl, fun htwo => exec_of_two_le (i := .add) rfl htwo nofun⟩⟩

/-- Settles O6, as O5 with the difference `a - b`. -/
theorem subPushesTheWrappedDifference : Obligations.SubPushesTheWrappedDifference :=
  ⟨decode_byteOf OpcodeMap.hardware_wf .sub,
    fun _ => ⟨exec_of_lt_two rfl, fun htwo => exec_of_two_le (i := .sub) rfl htwo nofun⟩⟩

/-- Settles O7, as O5 with the exact product. -/
theorem mulPushesTheLowProduct : Obligations.MulPushesTheLowProduct :=
  ⟨decode_byteOf OpcodeMap.hardware_wf .mul,
    fun _ => ⟨exec_of_lt_two rfl, fun htwo => exec_of_two_le (i := .mul) rfl htwo nofun⟩⟩

/-- Settles O8: the divisor is tested only after the depth, and the overflowing quotient wraps to the dividend. -/
theorem divPushesTheTruncatedQuotient : Obligations.DivPushesTheTruncatedQuotient := by
  refine ⟨decode_byteOf OpcodeMap.hardware_wf .div, fun s => ⟨exec_of_lt_two rfl, fun htwo hzero => ?_,
    fun htwo hdivisor => exec_of_two_le rfl htwo fun _ => hdivisor⟩, by decide⟩
  exact exec_of_fault (firstFault_div_of_zero htwo hzero)

/-- Settles O9: narrowing keeps the 1 or 0 of the comparison. -/
theorem cmpPushesSignedLess : Obligations.CmpPushesSignedLess := by
  refine ⟨decode_byteOf OpcodeMap.hardware_wf .cmp, fun s => ⟨exec_of_lt_two rfl, fun htwo => ?_⟩⟩
  rw [← wrap32_ite_one_zero]
  exact exec_of_two_le (i := .cmp) rfl htwo nofun

end Sys2Proof.Machine
end

section
/-! PROOFS. The branches (42_branch.md rules R130 to R133). -/

namespace Sys2Proof.Machine

variable {s : State} {i : Instr} {target : Word}

/-! ### The fetch from a target out of range -/

/-- R78: `PC` is compared unmasked, and the fault records it. -/
theorem step_of_pc_outside (hrun : s.run = true) (hpc : s.config.codeCap ≤ s.pc.toNat) :
    step s = .next (s.faulted .pcOutOfBounds) :=
  step_of_fetch_error hrun (fetch_of_pc_outside hpc)

/-! ### Instructions that write a target -/

theorem effect_config (i : Instr) (s : State) : (effect i s).config = s.config := by cases i <;> rfl

theorem effect_err (i : Instr) (s : State) : (effect i s).err = s.err := by cases i <;> rfl

/-- Of the instructions that complete only HALT clears `RUN`, and it writes no target. -/
theorem effect_run_of_targetOf (h : targetOf i s = some target) : (effect i s).run = s.run := by
  cases i with
  | halt => cases h
  | _ => rfl

theorem effect_pc_of_targetOf (h : targetOf i s = some target) : (effect i s).pc = target := by
  rw [effect_pc, h, Option.getD_some]

/-- R133: whatever instruction writes a target out of range, the fault is that of the next fetch. -/
theorem step_effect_of_target_outside (hrun : s.run = true) (h : targetOf i s = some target)
    (hout : s.config.codeCap ≤ target.toNat) :
    step (effect i s) = .next ((effect i s).faulted .pcOutOfBounds) := by
  apply step_of_pc_outside
  · rw [effect_run_of_targetOf h, hrun]
  · rwa [effect_config, effect_pc_of_targetOf h]

theorem firstFault_call_of_room (hroom : s.csp ≠ s.config.callCap) : firstFault (.call target) s = none := by
  simp [firstFault, checksOf, hroom]

/-! ### Conditional jumps: JZ and JNZ -/

/-- R131, R132: the one check of a conditional jump. -/
theorem firstFault_conditional (hi : i = .jz target ∨ i = .jnz target) :
    firstFault i s = if s.sp = 0 then some .stackUnderflow else none := by
  rcases hi with rfl | rfl <;> simp [firstFault, checksOf]

/-- R131, R132: a conditional jump pops whether or not it is taken, and writes `PC` besides. -/
theorem effect_conditional (hi : i = .jz target ∨ i = .jnz target) :
    effect i s = { s with sp := s.sp - 1, pc := (targetOf i s).getD (s.pc + 5) } := by
  have hpc := effect_pc i s
  rcases hi with rfl | rfl <;> exact congrArg s.pop.setPc hpc

theorem exec_conditional_of_empty (hi : i = .jz target ∨ i = .jnz target) (hempty : s.sp = 0) :
    exec i s = .next (s.faulted .stackUnderflow) :=
  exec_of_fault (by rw [firstFault_conditional hi, if_pos hempty])

theorem firstFault_conditional_of_some (hi : i = .jz target ∨ i = .jnz target) (hsome : s.sp ≠ 0) :
    firstFault i s = none := by
  rw [firstFault_conditional hi, if_neg hsome]

theorem exec_conditional_of_some (hi : i = .jz target ∨ i = .jnz target) (hsome : s.sp ≠ 0) :
    exec i s = .next { s with sp := s.sp - 1, pc := (targetOf i s).getD (s.pc + 5) } := by
  rw [exec_of_no_fault (firstFault_conditional_of_some hi hsome), effect_conditional hi]

/-! ### The statements -/

/-- Settles O16: each of the four completes with `target` in `PC`, and `step_effect_of_target_outside` gives the step
after it. -/
theorem targetsAreUnmaskedAndCheckedAtFetch : Obligations.TargetsAreUnmaskedAndCheckedAtFetch := by
  intro target s i hrun hout hi
  have ⟨hfault, htarget⟩ : firstFault i s = none ∧ targetOf i s = some target := by
    rcases hi with rfl | ⟨rfl, hsome, hzero⟩ | ⟨rfl, hsome, hnonzero⟩ | ⟨rfl, hroom⟩
    · exact ⟨rfl, rfl⟩
    · exact ⟨firstFault_conditional_of_some (.inl rfl) hsome, if_pos hzero⟩
    · exact ⟨firstFault_conditional_of_some (.inr rfl) hsome, if_neg hnonzero⟩
    · exact ⟨firstFault_call_of_room hroom, rfl⟩
  have hpc := effect_pc_of_targetOf htarget
  exact ⟨_, _, exec_of_no_fault hfault, hpc, (effect_run_of_targetOf htarget).trans hrun, effect_err i s,
    step_effect_of_target_outside hrun htarget hout, rfl, hpc⟩

/-- Settles O13: JMP has no check, and the next fetch faults on a target out of range. -/
theorem jmpSetsPc : Obligations.JmpSetsPc :=
  ⟨fun t0 t1 t2 t3 rest => decode_byteOf OpcodeMap.hardware_wf .jmp (t0 :: t1 :: t2 :: t3 :: rest),
    fun target s => ⟨rfl, rfl, fun hrun hout => step_of_pc_outside (s := { s with pc := target }) hrun hout⟩⟩

/-- Settles O14: JZ is a conditional jump whose target is taken on 0. -/
theorem jzPopsAndJumpsOnZero : Obligations.JzPopsAndJumpsOnZero := by
  refine ⟨fun t0 t1 t2 t3 rest => decode_byteOf OpcodeMap.hardware_wf .jz (t0 :: t1 :: t2 :: t3 :: rest),
    fun target s => ⟨exec_conditional_of_empty (.inl rfl), fun hsome hzero => ?taken, fun hsome hnonzero => ?passed⟩⟩
  case taken => rw [exec_conditional_of_some (.inl rfl) hsome, targetOf, if_pos hzero, Option.getD_some]
  case passed => rw [exec_conditional_of_some (.inl rfl) hsome, targetOf, if_neg hnonzero, Option.getD_none]

/-- Settles O15: JNZ is a conditional jump whose target is taken on any other value than 0. -/
theorem jnzPopsAndJumpsOnNonZero : Obligations.JnzPopsAndJumpsOnNonZero := by
  refine ⟨fun t0 t1 t2 t3 rest => decode_byteOf OpcodeMap.hardware_wf .jnz (t0 :: t1 :: t2 :: t3 :: rest),
    fun target s => ⟨exec_conditional_of_empty (.inr rfl), fun hsome hnonzero => ?taken, fun hsome hzero => ?passed⟩⟩
  case taken => rw [exec_conditional_of_some (.inr rfl) hsome, targetOf, if_neg hnonzero, Option.getD_some]
  case passed => rw [exec_conditional_of_some (.inr rfl) hsome, targetOf, if_pos hzero, Option.getD_none]

end Sys2Proof.Machine
end

section
/-! PROOFS. The memory bank (43_memory_access.md rules R140 and R141). -/

namespace Sys2Proof.Machine

variable {t : State}

/-! ### The checks of STORE and LOAD: the depth first, then the index -/

theorem firstFault_store (idx : Byte) (s : State) :
    firstFault (.store idx) s = if s.sp = 0 then some .stackUnderflow
      else if s.config.memSize ≤ idx.toNat then some .memOutOfBounds else none := by
  simp [firstFault, checksOf]

theorem firstFault_load (idx : Byte) (s : State) :
    firstFault (.load idx) s = if s.sp = s.config.stackCap then some .stackOverflow
      else if s.config.memSize ≤ idx.toNat then some .memOutOfBounds else none := by
  simp [firstFault, checksOf]

/-! ### The words that STORE leaves -/

theorem memRead_effect_store_same (idx : Byte) (s : State) :
    (effect (.store idx) s).memRead idx.toNat = s.top :=
  Memory.read_write_same s.mem idx.toNat s.top

theorem memRead_effect_store_other {k : Nat} (s : State) (hk : k ≠ idx.toNat) :
    (effect (.store idx) s).memRead k = s.memRead k :=
  Memory.read_write_other s.mem s.top hk

/-! ### The words that reset leaves -/

/-- R200, R202: a reset answers a state exactly for a program that fits, and it is the state of R38. -/
theorem hostReset_next {c : Config} {program : List Byte} :
    hostReset c program = .next t ↔ program.length ≤ c.codeCap ∧
      t = { State.reset with config := c, code := placeBytes c.codeCap [] 0 program } := by
  by_cases hfits : program.length ≤ c.codeCap
  · simp [hostReset_of_fits hfits, hfits, eq_comm]
  · simp [hostReset, Config.accepts, hfits]

/-- R38: every word of the memory bank is 0 at reset. -/
theorem memRead_of_hostReset {c : Config} {program : List Byte} (h : hostReset c program = .next t) (i : Nat) :
    t.memRead i = 0 := by
  obtain ⟨_, rfl⟩ := hostReset_next.1 h
  rfl

/-! ### STORE and LOAD -/

/-- Settles O17: STORE has two checks, underflow first, and its effect writes the top to the word at the index. -/
theorem storeWritesOneWord : Obligations.StoreWritesOneWord := by
  refine ⟨fun idx rest => decode_byteOf OpcodeMap.hardware_wf .store (idx :: rest),
    fun idx s => ⟨fun hempty => exec_of_fault ?empty, fun hsome hout => exec_of_fault ?outside,
      fun hsome hin => ⟨_, _, translate_ok.2 ⟨hin, rfl⟩, rfl, exec_of_no_fault ?completes, rfl,
        memRead_effect_store_same idx s, fun _ hk => memRead_effect_store_other s hk⟩⟩⟩
  case empty => rw [firstFault_store, if_pos hempty]
  case outside => rw [firstFault_store, if_neg hsome, if_pos hout]
  case completes => rw [firstFault_store, if_neg hsome, if_neg (Nat.not_le.2 hin)]

/-- Settles O18: LOAD has two checks, overflow first, and pushes the word at the index. -/
theorem loadPushesOneWord : Obligations.LoadPushesOneWord := by
  refine ⟨fun idx rest => decode_byteOf OpcodeMap.hardware_wf .load (idx :: rest),
    fun idx s => ⟨fun hfull => exec_of_fault ?full, fun hroom hout => exec_of_fault ?outside,
      fun hroom hin => ⟨_, _, translate_ok.2 ⟨hin, rfl⟩, rfl, exec_of_no_fault ?completes,
        writesStackSlot_push s (s.memRead idx.toNat) _⟩⟩,
    fun _ _ _ => memRead_of_hostReset⟩
  case full => rw [firstFault_load, if_pos hfull]
  case outside => rw [firstFault_load, if_neg hroom, if_pos hout]
  case completes => rw [firstFault_load, if_neg hroom, if_neg (Nat.not_le.2 hin)]

end Sys2Proof.Machine
end

section
/-! PROOFS. Subroutines (44_subroutine.md rules R150 and R151). -/

namespace Sys2Proof.Machine

variable {s : State} {target : Word}

/-! ### The checks of CALL and RET: the depth of the call stack -/

theorem firstFault_call_of_full (hfull : s.csp = s.config.callCap) :
    firstFault (.call target) s = some .callStackOverflow := by
  simp [firstFault, checksOf, hfull]

theorem firstFault_ret (s : State) : firstFault .ret s = if s.csp = 0 then some .callStackUnderflow else none := by
  simp [firstFault, checksOf]

/-! ### The slots that CALL leaves -/

/-- R150: the slot at the pointer takes the address of the instruction after the call. -/
theorem effect_call_cstk_same (target : Word) (s : State) :
    (effect (.call target) s).cstk.read s.csp = s.pc + 5 :=
  Memory.read_write_same s.cstk s.csp (s.nextPc .call)

theorem effect_call_cstk_other {k : Nat} (target : Word) (s : State) (hk : k ≠ s.csp) :
    (effect (.call target) s).cstk.read k = s.cstk.read k :=
  Memory.read_write_other s.cstk (s.nextPc .call) hk

/-! ### CALL and RET -/

/-- Settles O21: CALL has one check and writes one slot, and its target is checked by the next fetch. -/
theorem callSavesNextAndJumps : Obligations.CallSavesNextAndJumps :=
  ⟨fun t0 t1 t2 t3 rest => decode_byteOf OpcodeMap.hardware_wf .call (t0 :: t1 :: t2 :: t3 :: rest),
    fun target s => ⟨fun hfull => exec_of_fault (firstFault_call_of_full hfull),
      fun hroom => ⟨_, exec_of_no_fault (firstFault_call_of_room hroom), rfl, effect_call_cstk_same target s,
        fun _ hk => effect_call_cstk_other target s hk, fun hrun hout => step_effect_of_target_outside hrun rfl hout⟩⟩⟩

/-- Settles O22: RET has one check, and the address it pops is a target, checked by the next fetch. -/
theorem retReturnsToTheSavedAddress : Obligations.RetReturnsToTheSavedAddress := by
  refine ⟨decode_byteOf OpcodeMap.hardware_wf .ret,
    fun s => ⟨fun hempty => exec_of_fault ?empty, fun hsaved => ⟨_, exec_of_no_fault ?completes, rfl,
      fun hrun hout => step_effect_of_target_outside hrun rfl hout⟩⟩⟩
  case empty => rw [firstFault_ret, if_pos hempty]
  case completes => rw [firstFault_ret, if_neg hsaved]

end Sys2Proof.Machine
end

section
/-! PROOFS. HALT and the end of a run (45_system.md rules R160 and R161). -/

namespace Sys2Proof.Machine

variable {s t : State} {i : Instr}

/-! ### The halt report -/

theorem result_of_empty (hempty : s.sp = 0) : s.result = none := by
  simp [State.result, State.resultValid, hempty]

theorem result_of_nonempty (hsome : 0 < s.sp) : s.result = some (s.stk.read (s.sp - 1)) := by
  simp [State.result, State.resultValid, State.top, hsome]

/-- R206: a run that ended without a fault ended cleanly, with the report of R161. -/
theorem runStatus_of_clean (hrun : s.run = false) (herr : s.err = false) : s.runStatus = .clean s.result := by
  simp [State.runStatus, hrun, herr]

/-! ### What clears `RUN` -/

theorem effect_run_of_ne_halt (h : i ≠ .halt) (s : State) : (effect i s).run = s.run := by
  cases i with
  | halt => exact absurd rfl h
  | _ => rfl

/-- A fault is recorded in `ERR`, so what leaves `ERR` = 0 completed. -/
theorem eq_effect_of_exec_of_no_err (h : exec i s = .next t) (herr : t.err = false) : t = effect i s := by
  cases hf : firstFault i s with
  | none => exact exec_next_of_no_fault h hf
  | some c => simp [exec_next_of_fault h hf] at herr

/-- A step that records no fault completed the instruction it fetched. -/
theorem step_next_of_no_err (h : step s = .next t) (herr : t.err = false) :
    s.run = true ∧ ∃ i, fetch s = .ok i ∧ t = effect i s := by
  obtain ⟨hrun, ⟨c, _, rfl⟩ | ⟨i, hfetch, hexec⟩⟩ := step_next h
  · simp at herr
  · exact ⟨hrun, i, hfetch, eq_effect_of_exec_of_no_err hexec herr⟩

/-- R160: "HALT is the only way a run ends without a fault". -/
theorem fetch_halt_of_clean_end (h : step s = .next t) (hstop : t.run = false) (herr : t.err = false) :
    fetch s = .ok .halt := by
  obtain ⟨hrun, i, hfetch, rfl⟩ := step_next_of_no_err h herr
  by_cases hi : i = .halt
  · rw [hfetch, hi]
  · simp [effect_run_of_ne_halt hi, hrun] at hstop

/-! ### HALT -/

/-- R161: HALT keeps the operand stack, so the report is that of the state before it. -/
theorem runStatus_effect_halt (herr : s.err = false) : (effect .halt s).runStatus = .clean s.result :=
  runStatus_of_clean (s := effect .halt s) rfl herr

/-- Settles O24: HALT has no check, its effect leaves `RUN` = 0 and the stack to be reported, and
`fetch_halt_of_clean_end` excludes every other end. -/
theorem haltEndsTheRunCleanly : Obligations.HaltEndsTheRunCleanly := by
  refine ⟨decode_byteOf OpcodeMap.hardware_wf .halt,
    fun s => ⟨_, exec_of_no_fault rfl, rfl, step_ne_next_of_stopped rfl, fun herr hempty => ?empty,
      fun herr hsome => ?nonempty⟩,
    fun _ _ => fetch_halt_of_clean_end⟩
  case empty => rw [runStatus_effect_halt herr, result_of_empty hempty]
  case nonempty => rw [runStatus_effect_halt herr, result_of_nonempty hsome]

end Sys2Proof.Machine
end

section
/-! PROOFS. Faults: their entry, their causes and the order of the checks (60_exceptions.md rules R170, R171, R176,
R178). -/

namespace Sys2Proof.Machine

variable {s t : State} {i : Instr} {c : Cause} {o : Op}

/-- Settles O25: `faulted` writes the four registers, and with `RUN` = 0 there is no step. -/
theorem faultEntryWritesFourRegisters : Obligations.FaultEntryWritesFourRegisters :=
  fun _ _ => ⟨rfl, step_ne_next_of_stopped rfl⟩

/-! ### What a faulting step did -/

/-- The cause of a cycle's fault: that of the fetch, or the first failing check of the fetched instruction. -/
def CycleRaises (s : State) (c : Cause) : Prop :=
  fetch s = .error c ∨ ∃ i, fetch s = .ok i ∧ firstFault i s = some c

/-- Only a fault sets `ERR`. -/
theorem eq_faulted_of_step_of_err (herr : s.err = false) (h : step s = .next t) (ht : t.err = true) :
    ∃ c, CycleRaises s c ∧ t = s.faulted c := by
  obtain ⟨_, ⟨c, hfetch, rfl⟩ | ⟨i, hfetch, hexec⟩⟩ := step_next h
  · exact ⟨c, .inl hfetch, rfl⟩
  · cases hf : firstFault i s with
    | none => simp [exec_next_of_no_fault hexec hf, effect_err, herr] at ht
    | some c => exact ⟨c, .inr ⟨i, hfetch, hf⟩, exec_next_of_fault hexec hf⟩

/-- Settles O26: what sets `ERR` is the entry of a fault, and nothing else of the cycle is written. -/
theorem faultsArePrecise : Obligations.FaultsArePrecise := by
  intro s t herr h ht
  obtain ⟨c, _, rfl⟩ := eq_faulted_of_step_of_err herr h ht
  exact ⟨⟨c, rfl⟩, step_ne_next_of_stopped rfl⟩

/-! ### The bound on the operand, in the length of the opcode -/

theorem fetch_of_length_outside (hpc : s.pc.toNat < s.config.codeCap)
    (ho : s.config.opcodes.opcodeOf (s.codeByte s.pc.toNat) = some o)
    (hout : s.config.codeCap < s.pc.toNat + o.length) : fetch s = .error .pcOutOfBounds :=
  fetch_of_operand_outside hpc ho (by rwa [Nat.add_assoc])

theorem op_instrOf (o : Op) (opnd : Word) : (instrOf o opnd).op = o := by cases o <;> rfl

theorem fetch_of_length_inside (ho : s.config.opcodes.opcodeOf (s.codeByte s.pc.toNat) = some o)
    (hin : s.pc.toNat + o.length ≤ s.config.codeCap) : ∃ i : Instr, i.op = o ∧ fetch s = .ok i :=
  ⟨_, op_instrOf o _, fetch_of_in_range ho (by rwa [Nat.add_assoc])⟩

/-! ### The table of causes -/

/-- The row of R170's table for a cause: the condition, and the fetched instruction that raises it. The statement of
O27 is the disjunction of these rows (`faultCausesAreAsTabled`). -/
def RaisedAsTabled (s : State) : Cause → Prop
  | .stackOverflow => s.sp = s.config.stackCap ∧
      ((∃ imm, fetch s = .ok (.push imm)) ∨ fetch s = .ok .dup ∨ ∃ idx, fetch s = .ok (.load idx))
  | .stackUnderflow =>
      (s.sp = 0 ∧ (fetch s = .ok .pop ∨ fetch s = .ok .dup ∨ (∃ target, fetch s = .ok (.jz target)) ∨
        (∃ target, fetch s = .ok (.jnz target)) ∨ ∃ idx, fetch s = .ok (.store idx))) ∨
      (s.sp < 2 ∧ (fetch s = .ok .add ∨ fetch s = .ok .sub ∨ fetch s = .ok .mul ∨ fetch s = .ok .div ∨
        fetch s = .ok .cmp))
  | .callStackOverflow => s.csp = s.config.callCap ∧ ∃ target, fetch s = .ok (.call target)
  | .callStackUnderflow => s.csp = 0 ∧ fetch s = .ok .ret
  | .memOutOfBounds =>
      ∃ idx, s.config.memSize ≤ idx.toNat ∧ (fetch s = .ok (.store idx) ∨ fetch s = .ok (.load idx))
  | .divByZero => s.stk.read (s.sp - 1) = 0 ∧ fetch s = .ok .div
  | .invalidOpcode =>
      s.pc.toNat < s.config.codeCap ∧ s.config.opcodes.opcodeOf (s.codeByte s.pc.toNat) = none
  | .pcOutOfBounds => s.config.codeCap ≤ s.pc.toNat ∨
      ∃ o, s.config.opcodes.opcodeOf (s.codeByte s.pc.toNat) = some o ∧ s.config.codeCap < s.pc.toNat + o.length

/-- Codes 7 and 8: the faults of the fetch, in the order of its checks. -/
theorem raisedAsTabled_of_fetch_error (h : fetch s = .error c) : RaisedAsTabled s c := by
  by_cases hpc : s.config.codeCap ≤ s.pc.toNat
  · obtain rfl : Cause.pcOutOfBounds = c := by simpa [fetch_of_pc_outside hpc] using h
    exact .inl hpc
  · rw [Nat.not_le] at hpc
    cases ho : s.config.opcodes.opcodeOf (s.codeByte s.pc.toNat) with
    | none =>
      obtain rfl : Cause.invalidOpcode = c := by simpa [fetch_of_invalid_opcode hpc ho] using h
      exact ⟨hpc, ho⟩
    | some o =>
      rcases Nat.lt_or_ge s.config.codeCap (s.pc.toNat + o.length) with hout | hin
      · obtain rfl : Cause.pcOutOfBounds = c := by simpa [fetch_of_length_outside hpc ho hout] using h
        exact .inr ⟨o, ho, hout⟩
      · obtain ⟨i, _, hok⟩ := fetch_of_length_inside ho hin
        simp [hok] at h

theorem mem_of_firstFailing {checks : List (Bool × Cause)} (h : firstFailing checks = some c) :
    (true, c) ∈ checks := by
  induction checks with
  | nil => simp at h
  | cons check rest ih =>
    obtain ⟨fails, c'⟩ := check
    cases fails with
    | false => exact List.mem_cons_of_mem _ (ih h)
    | true =>
      obtain rfl : c' = c := by simpa using h
      exact List.mem_cons_self

/-- Codes 1 to 6: the fault of an instruction is that of one of its own checks, which failed. -/
theorem raisedAsTabled_of_firstFault (hfetch : fetch s = .ok i) (h : firstFault i s = some c) :
    RaisedAsTabled s c := by
  have hmem := mem_of_firstFailing h
  cases i with
  | push imm =>
    obtain ⟨hfull, rfl⟩ : s.sp = s.config.stackCap ∧ c = .stackOverflow := by simpa [checksOf] using hmem
    exact ⟨hfull, .inl ⟨imm, hfetch⟩⟩
  | pop | jz | jnz =>
    obtain ⟨hempty, rfl⟩ : s.sp = 0 ∧ c = .stackUnderflow := by simpa [checksOf] using hmem
    exact .inl ⟨hempty, by simp [hfetch]⟩
  | dup =>
    obtain ⟨hempty, rfl⟩ | ⟨hfull, rfl⟩ :
        s.sp = 0 ∧ c = .stackUnderflow ∨ s.sp = s.config.stackCap ∧ c = .stackOverflow := by
      simpa [checksOf] using hmem
    · exact .inl ⟨hempty, .inr (.inl hfetch)⟩
    · exact ⟨hfull, .inr (.inl hfetch)⟩
  | add | sub | mul | cmp =>
    obtain ⟨htwo, rfl⟩ : s.sp < 2 ∧ c = .stackUnderflow := by simpa [checksOf] using hmem
    exact .inr ⟨htwo, by simp [hfetch]⟩
  | div =>
    obtain ⟨htwo, rfl⟩ | ⟨hzero, rfl⟩ :
        s.sp < 2 ∧ c = .stackUnderflow ∨ s.stk.read (s.sp - 1) = 0 ∧ c = .divByZero := by
      simpa [checksOf] using hmem
    · exact .inr ⟨htwo, by simp [hfetch]⟩
    · exact ⟨hzero, hfetch⟩
  | store idx =>
    obtain ⟨hempty, rfl⟩ | ⟨hout, rfl⟩ :
        s.sp = 0 ∧ c = .stackUnderflow ∨ s.config.memSize ≤ idx.toNat ∧ c = .memOutOfBounds := by
      simpa [checksOf] using hmem
    · exact .inl ⟨hempty, by simp [hfetch]⟩
    · exact ⟨idx, hout, .inl hfetch⟩
  | load idx =>
    obtain ⟨hfull, rfl⟩ | ⟨hout, rfl⟩ :
        s.sp = s.config.stackCap ∧ c = .stackOverflow ∨ s.config.memSize ≤ idx.toNat ∧ c = .memOutOfBounds := by
      simpa [checksOf] using hmem
    · exact ⟨hfull, .inr (.inr ⟨idx, hfetch⟩)⟩
    · exact ⟨idx, hout, .inr hfetch⟩
  | call target =>
    obtain ⟨hfull, rfl⟩ : s.csp = s.config.callCap ∧ c = .callStackOverflow := by simpa [checksOf] using hmem
    exact ⟨hfull, target, hfetch⟩
  | ret =>
    obtain ⟨hempty, rfl⟩ : s.csp = 0 ∧ c = .callStackUnderflow := by simpa [checksOf] using hmem
    exact ⟨hempty, hfetch⟩
  | jmp | halt => cases hmem

theorem raisedAsTabled (h : CycleRaises s c) : RaisedAsTabled s c := by
  obtain hfetch | ⟨i, hfetch, hf⟩ := h
  · exact raisedAsTabled_of_fetch_error hfetch
  · exact raisedAsTabled_of_firstFault hfetch hf

/-- Settles O27: the code of the cause raised selects its row, and the two forms of underflow are two rows. -/
theorem faultCausesAreAsTabled : Obligations.FaultCausesAreAsTabled := by
  intro s t herr h ht
  obtain ⟨c, hraises, rfl⟩ := eq_faulted_of_step_of_err herr h ht
  have hrow := raisedAsTabled hraises
  cases c <;> simpa [RaisedAsTabled, Cause.code] using hrow

/-! ### The order of the checks -/

theorem effect_cause (i : Instr) (s : State) : (effect i s).cause = s.cause := by cases i <;> rfl

theorem effect_faultPc (i : Instr) (s : State) : (effect i s).faultPc = s.faultPc := by cases i <;> rfl

/-- Settles O28: the fetch answers its first failing check, and `exec_eq` the instruction's; a completed instruction
writes none of the three fault registers. -/
theorem checksAreMadeInOrder : Obligations.ChecksAreMadeInOrder := by
  refine ⟨fun s hrun => ⟨step_of_pc_outside hrun, fun hpc ho => ?invalid, fun o hpc ho =>
    ⟨fun hout => ?outside, fun hin => ?inside⟩⟩, fun i s => ⟨fun _ => exec_of_fault, fun hf => ?completes⟩⟩
  case invalid => exact step_of_fetch_error hrun (fetch_of_invalid_opcode hpc ho)
  case outside => exact step_of_fetch_error hrun (fetch_of_length_outside hpc ho hout)
  case inside =>
    obtain ⟨i, hop, hfetch⟩ := fetch_of_length_inside ho hin
    exact ⟨i, hop, hfetch, step_of_fetch_ok hrun hfetch⟩
  case completes => exact ⟨_, exec_of_no_fault hf, effect_err i s, effect_cause i s, effect_faultPc i s⟩

end Sys2Proof.Machine
end

section
/-! PROOFS. Encoding and decoding are inverse (30_encoding.md rules R70 to R74), and the step that runs an encoded
instruction (R81). -/

namespace Sys2Proof.Machine

variable {s : State} {m : OpcodeMap} {i : Instr} {o : Op} {bs rest : List Byte}

/-! ### Decoding after encoding -/

theorem takeWord_bytesOfWord (o : Op) (make : Word → Instr) (w : Word) (rest : List Byte) :
    takeWord o make (bytesOfWord w ++ rest) = .ok (make w, rest) := by
  simp [bytesOfWord, takeWord, wordOfBytes_bytesOfWord]

/-- R72, R73: the operand reader undoes the operand bytes. -/
theorem decodeOperand_operandBytes (i : Instr) (rest : List Byte) :
    decodeOperand i.op (operandBytes i ++ rest) = .ok (i, rest) := by
  cases i with
  | push w | jmp w | jz w | jnz w | call w =>
    simp only [Instr.op, operandBytes, decodeOperand, takeWord_bytesOfWord]
  | _ => rfl

theorem decode_encode_append (h : m.wf = true) (i : Instr) (rest : List Byte) :
    decode m (encode m i ++ rest) = .ok (i, rest) :=
  (decode_byteOf h i.op _).trans (decodeOperand_operandBytes i rest)

/-- Settles O42: the opcode byte gives the opcode, whose operand reader undoes the operand bytes. -/
theorem decodeInvertsEncode : Obligations.DecodeInvertsEncode :=
  fun _ i rest h => decode_encode_append h i rest

/-! ### Encoding after decoding -/

theorem eq_of_takeIndex_ok {make : Byte → Instr} (h : takeIndex o make bs = .ok (i, rest)) :
    ∃ b, i = make b ∧ bs = b :: rest := by
  match bs with
  | [] => simp [takeIndex] at h
  | b :: bs =>
    obtain ⟨rfl, rfl⟩ : make b = i ∧ bs = rest := by simpa [takeIndex] using h
    exact ⟨b, rfl, rfl⟩

theorem eq_of_takeWord_ok {make : Word → Instr} (h : takeWord o make bs = .ok (i, rest)) :
    ∃ w, i = make w ∧ bs = bytesOfWord w ++ rest := by
  match bs with
  | [] | [_] | [_, _] | [_, _, _] => simp [takeWord] at h
  | b0 :: b1 :: b2 :: b3 :: bs =>
    obtain ⟨rfl, rfl⟩ : make (wordOfBytes b0 b1 b2 b3) = i ∧ bs = rest := by simpa [takeWord] using h
    exact ⟨_, rfl, by rw [bytesOfWord_wordOfBytes]; rfl⟩

/-- The operand reader drops no byte. -/
theorem eq_operandBytes_of_decodeOperand_ok (h : decodeOperand o bs = .ok (i, rest)) :
    bs = operandBytes i ++ rest := by
  cases o with
  | push | jmp | jz | jnz | call =>
    obtain ⟨w, rfl, hbs⟩ := eq_of_takeWord_ok h
    exact hbs
  | store | load =>
    obtain ⟨b, rfl, hbs⟩ := eq_of_takeIndex_ok h
    exact hbs
  | pop | dup | add | sub | mul | div | cmp | ret | halt =>
    cases h
    rfl

/-- Settles O43: what decodes starts with a byte that is some opcode's, and the operand reader of that opcode drops no
byte. -/
theorem encodeInvertsDecode : Obligations.EncodeInvertsDecode := by
  intro m bytes rest i h
  cases bytes with
  | nil => simp [decode] at h
  | cons b bs =>
    obtain ⟨hop, _⟩ := decode_cons_ok h
    rw [decode_cons_of_some hop] at h
    rw [eq_operandBytes_of_decodeOperand_ok h, ← OpcodeMap.byteOf_of_opcodeOf hop]
    rfl

/-! ### Programs -/

/-- R70: decoding a program takes one encoding per instruction, so as much fuel as it has instructions is enough. -/
theorem decodeUpTo_encodeProgram (h : m.wf = true) (is : List Instr) {fuel : Nat} (hfuel : is.length ≤ fuel) :
    decodeUpTo m fuel (encodeProgram m is) = .ok is := by
  induction is generalizing fuel with
  | nil => cases fuel <;> rfl
  | cons i is ih =>
    obtain ⟨fuel, rfl⟩ := Nat.exists_eq_add_of_le' (Nat.one_le_of_lt hfuel)
    have hfirst := decode_encode_append h i (encodeProgram m is)
    have hothers := ih (Nat.le_of_succ_le_succ hfuel)
    rw [encode, List.cons_append] at hfirst
    simp [encodeProgram, encode, decodeUpTo, hfirst, hothers]

theorem length_le_length_encodeProgram (m : OpcodeMap) (is : List Instr) :
    is.length ≤ (encodeProgram m is).length := by
  induction is with
  | nil => exact Nat.zero_le _
  | cons i is ih =>
    have hpos : 1 ≤ i.length := i.op.length_pos
    rw [encodeProgram, List.length_append, length_encode, List.length_cons]
    omega

theorem decodeProgram_encodeProgram (h : m.wf = true) (is : List Instr) :
    decodeProgram m (encodeProgram m is) = .ok is :=
  decodeUpTo_encodeProgram h is (length_le_length_encodeProgram m is)

/-- Settles O44: every list of instructions decodes back, a leading run like the whole, and the encoding of a
concatenation is the concatenation of the encodings. -/
theorem programsDecodeToTheirInstructions : Obligations.ProgramsDecodeToTheirInstructions :=
  fun m is js h => ⟨decodeProgram_encodeProgram h (is ++ js), ⟨_, (encodeProgram_append m is js).symm⟩,
    decodeProgram_encodeProgram h is⟩

/-- Settles O45: the decoder evaluated on each of the six words. -/
theorem writtenWordsDecode : Obligations.WrittenWordsDecode := by
  unfold Obligations.WrittenWordsDecode
  decide

/-! ### The step of an encoded instruction -/

/-- Settles O30: the bytes named are the window that the fetch decodes. -/
theorem stepRunsTheDecodedInstruction : Obligations.StepRunsTheDecodedInstruction :=
  fun _ _ _ hrun hpc hd => step_of_fetch_ok hrun (fetch_of_decode_ok hpc hd)

theorem State.codeBytes_add (s : State) (a n k : Nat) :
    s.codeBytes a (n + k) = s.codeBytes a n ++ s.codeBytes (a + n) k := by
  simp [State.codeBytes, List.range_add, Function.comp_def, Nat.add_assoc]

/-- An instruction that ends within the code buffer lies in the fetch's window. -/
theorem fetchWindow_eq_append (hfits : s.pc.toNat + i.length ≤ s.config.codeCap) :
    ∃ rest, fetchWindow s = s.codeBytes s.pc.toNat i.length ++ rest := by
  have hmax : i.length ≤ maxLength := i.op.length_le
  obtain ⟨k, hk⟩ := Nat.exists_eq_add_of_le (show i.length ≤ min maxLength (s.config.codeCap - s.pc.toNat) by omega)
  exact ⟨_, by rw [fetchWindow, hk, State.codeBytes_add]⟩

/-- R81: the encoding of an instruction at `PC` is fetched as that instruction. -/
theorem fetch_of_encode (hwf : s.config.opcodes.wf = true) (hfits : s.pc.toNat + i.length ≤ s.config.codeCap)
    (hcode : s.codeBytes s.pc.toNat i.length = encode s.config.opcodes i) : fetch s = .ok i := by
  have hpos : 1 ≤ i.length := i.op.length_pos
  obtain ⟨rest, hwindow⟩ := fetchWindow_eq_append hfits
  refine fetch_of_decode_ok (rest := rest) (by omega) ?_
  rw [hwindow, hcode, decode_encode_append hwf]

/-- Settles O31: the fetch's window starts with the encoding, which decodes to the instruction. -/
theorem stepRunsTheEncodedInstruction : Obligations.StepRunsTheEncodedInstruction :=
  fun _ _ hwf hrun hfits hcode => step_of_fetch_ok hrun (fetch_of_encode hwf hfits hcode)

/-! ### A word placed at `PC` -/

/-- Bytes placed at `PC` that end within the code buffer are read back from there. -/
theorem codeBytes_placeAtPc (hfits : s.pc.toNat + bs.length ≤ s.config.codeCap) :
    (s.placeAtPc bs).codeBytes s.pc.toNat bs.length = bs := by
  refine List.ext_getElem (State.length_codeBytes _ _ _) fun k _ hk => ?_
  simp [State.codeBytes, State.codeByte, read_placeBytes bs _ _ _ hfits, hk]

theorem length_tableBytes (nbits w : Nat) : (tableBytes nbits w).length = maxLength := by simp [tableBytes]

/-- The whole window of the next fetch from reset is the placed word. -/
theorem fetchWindow_withFetchWord (nbits w : Nat) :
    fetchWindow (State.reset.withFetchWord nbits w) = tableBytes nbits w := by
  have hread := codeBytes_placeAtPc (s := State.reset) (bs := tableBytes nbits w)
    (by rw [length_tableBytes]; decide)
  rwa [length_tableBytes] at hread

theorem decode_of_decodeTableWord {nbits w : Nat} (h : decodeTableWord nbits w = some i) :
    ∃ rest, decode OpcodeMap.hardware (tableBytes nbits w) = .ok (i, rest) := by
  unfold decodeTableWord at h
  split at h
  · next rest hd =>
    cases h
    exact ⟨rest, hd⟩
  · cases h

/-- Settles O49: the window of the first fetch is the table word, which decodes to the instruction. -/
theorem placedTableWordRuns : Obligations.PlacedTableWordRuns := by
  intro nbits w i h
  obtain ⟨rest, hd⟩ := decode_of_decodeTableWord h
  have hpc : State.reset.pc.toNat < State.reset.config.codeCap := by decide
  refine step_of_fetch_ok rfl (fetch_of_decode_ok (rest := rest) hpc ?_)
  rw [fetchWindow_withFetchWord]
  exact hd

end Sys2Proof.Machine
end

section
/-! PROOFS. The stacks as sequences (10_state.md rules R23 and R34, decision D21): the machine's instructions are those
on sequences, and so the slots at or above the pointers (R24) are not observed. -/

namespace Sys2Proof.Machine

variable {s t : State} {i : Instr}

/-! ### Sequences -/

theorem entries_of_pos {w : Nat} (m : Memory w) {n : Nat} (h : n ≠ 0) :
    entries m n = m.read (n - 1) :: entries m (n - 1) := by
  obtain ⟨n, rfl⟩ := Nat.exists_eq_succ_of_ne_zero h
  rfl

theorem read_eq_of_entries_eq {w : Nat} {m m' : Memory w} {n : Nat} (h : entries m n = entries m' n) {k : Nat}
    (hk : k < n) : m.read k = m'.read k := by
  induction n with
  | zero => omega
  | succ n ih =>
    obtain ⟨htop, hbelow⟩ := List.cons.inj h
    rcases Nat.lt_or_eq_of_le (Nat.le_of_lt_succ hk) with hlt | rfl
    · exact ih hbelow hlt
    · exact htop

/-! ### The checks of the sequence form, on a state seen as sequences -/

theorem withTop_seq (s : State) (f : Word → List Word → SeqState) :
    s.seq.withTop f =
      if s.sp = 0 then s.seq.faulted .stackUnderflow else f s.top (entries s.stk (s.sp - 1)) := by
  by_cases hempty : s.sp = 0
  · simp [SeqState.withTop, State.seq, entries, hempty]
  · simp [SeqState.withTop, State.seq, State.top, entries_of_pos, hempty]

theorem withTwo_seq (s : State) (f : Int → Int → List Word → SeqState) :
    s.seq.withTwo f =
      if s.sp < 2 then s.seq.faulted .stackUnderflow
      else f s.left.toInt s.right.toInt (entries s.stk (s.sp - 2)) := by
  match hsp : s.sp with
  | 0 | 1 => simp [SeqState.withTwo, State.seq, entries, hsp]
  | n + 2 => simp [SeqState.withTwo, State.seq, State.left, State.right, State.top, State.second, entries, hsp]

theorem withRoom_seq (s : State) (q : SeqState) :
    s.seq.withRoom q = if s.sp = s.config.stackCap then s.seq.faulted .stackOverflow else q := by
  simp [SeqState.withRoom, State.seq, length_entries]

theorem withWord_seq (s : State) (idx : Byte) (f : Nat → SeqState) :
    s.seq.withWord idx f =
      if s.config.memSize ≤ idx.toNat then s.seq.faulted .memOutOfBounds else f idx.toNat := rfl

theorem seqExec_call_seq (target : Word) (s : State) :
    seqExec (.call target) s.seq =
      if s.csp = s.config.callCap then s.seq.faulted .callStackOverflow
      else { s.seq with calls := s.nextPc .call :: s.seq.calls, pc := target } := by
  simp [seqExec, State.seq, State.nextPc, length_entries]

theorem seqExec_ret_seq (s : State) :
    seqExec .ret s.seq =
      if s.csp = 0 then s.seq.faulted .callStackUnderflow
      else { s.seq with calls := entries s.cstk (s.csp - 1), pc := s.ctop } := by
  by_cases hempty : s.csp = 0
  · simp [seqExec, State.seq, entries, hempty]
  · simp [seqExec, State.seq, State.ctop, entries_of_pos, hempty]

/-! ### The effects, seen as sequences -/

theorem stack_seq_of_nonempty (h : s.sp ≠ 0) : s.seq.stack = s.top :: entries s.stk (s.sp - 1) :=
  entries_of_pos s.stk h

theorem continueWith_seq (s : State) (o : Op) (stack : List Word) :
    s.seq.continueWith o stack = { s.seq with stack := stack, pc := s.nextPc o } := rfl

theorem mem_seq (s : State) : s.seq.mem = s.mem := rfl

theorem seq_faulted (c : Cause) (s : State) : (s.faulted c).seq = s.seq.faulted c := rfl

theorem seq_pop_setPc (s : State) (pc : Word) :
    (s.pop.setPc pc).seq = { s.seq with stack := entries s.stk (s.sp - 1), pc := pc } := rfl

theorem seq_pop_memWrite_setPc (s : State) (k : Nat) (v pc : Word) :
    ((s.pop.memWrite k v).setPc pc).seq =
      { s.seq with stack := entries s.stk (s.sp - 1), mem := s.mem.write k v, pc := pc } := rfl

theorem seq_cpop_setPc (s : State) (pc : Word) :
    (s.cpop.setPc pc).seq = { s.seq with calls := entries s.cstk (s.csp - 1), pc := pc } := rfl

theorem seq_push_setPc (s : State) (v pc : Word) :
    ((s.push v).setPc pc).seq = { s.seq with stack := v :: s.seq.stack, pc := pc } := by
  simp [State.seq, entries_push]

theorem seq_cpush_setPc (s : State) (v pc : Word) :
    ((s.cpush v).setPc pc).seq = { s.seq with calls := v :: s.seq.calls, pc := pc } := by
  simp [State.seq, entries_push]

theorem seq_replaceTwo (s : State) (o : Op) (v : Word) :
    (s.replaceTwo o v).seq = { s.seq with stack := v :: entries s.stk (s.sp - 2), pc := s.nextPc o } := by
  simp [State.seq, entries_push, Nat.sub_sub]

/-! ### Each instruction -/

theorem toInt_eq_zero_iff (v : Word) : v.toInt = 0 ↔ v = 0#32 := by
  rw [← BitVec.toInt_inj, BitVec.toInt_zero]

/-- D21: the sequence form of an instruction gives the machine's answer (`exec_eq`) seen as sequences. -/
theorem seqExec_seq (i : Instr) (s : State) :
    seqExec i s.seq = ((firstFault i s).elim (effect i s) fun c => s.faulted c).seq := by
  unfold firstFault
  cases i with
  | push imm =>
    by_cases hfull : s.sp = s.config.stackCap <;>
      simp [seqExec, checksOf, effect, withRoom_seq, continueWith_seq, seq_faulted, seq_push_setPc, hfull]
  | pop =>
    by_cases hempty : s.sp = 0 <;>
      simp [seqExec, checksOf, effect, withTop_seq, continueWith_seq, seq_faulted, seq_pop_setPc, hempty]
  | dup =>
    by_cases hempty : s.sp = 0
    · simp [seqExec, checksOf, withTop_seq, seq_faulted, hempty]
    · by_cases hfull : s.sp = s.config.stackCap
      · simp [seqExec, checksOf, withTop_seq, withRoom_seq, seq_faulted, hfull, hfull ▸ hempty]
      · simp [seqExec, checksOf, effect, withTop_seq, withRoom_seq, continueWith_seq, seq_push_setPc,
          stack_seq_of_nonempty, hempty, hfull]
  | add | sub | mul | cmp =>
    by_cases htwo : s.sp < 2 <;>
      simp [seqExec, checksOf, effect, withTwo_seq, continueWith_seq, seq_faulted, seq_replaceTwo, htwo, addWord,
        subWord, mulWord, cmpWord]
  | div =>
    by_cases htwo : s.sp < 2
    · simp [seqExec, checksOf, withTwo_seq, seq_faulted, htwo]
    · by_cases hzero : s.stk.read (s.sp - 1) = 0#32 <;>
        simp [seqExec, checksOf, effect, withTwo_seq, continueWith_seq, seq_faulted, seq_replaceTwo, divWord, tdiv_eq,
          toInt_eq_zero_iff, State.right, State.top, htwo, hzero]
  | jmp target => rfl
  | jz target | jnz target =>
    by_cases hempty : s.sp = 0
    · simp [seqExec, checksOf, withTop_seq, seq_faulted, hempty]
    · by_cases hzero : s.top = 0#32 <;>
        simp [seqExec, checksOf, effect, withTop_seq, continueWith_seq, seq_pop_setPc, hempty, hzero]
  | store idx =>
    by_cases hempty : s.sp = 0
    · simp [seqExec, checksOf, withTop_seq, seq_faulted, hempty]
    · by_cases hout : s.config.memSize ≤ idx.toNat
      · simp [seqExec, checksOf, withTop_seq, withWord_seq, seq_faulted, hempty, hout]
      · simp [seqExec, checksOf, effect, withTop_seq, withWord_seq, continueWith_seq, seq_pop_memWrite_setPc, mem_seq,
          hempty, hout]
  | load idx =>
    by_cases hfull : s.sp = s.config.stackCap
    · simp [seqExec, checksOf, withRoom_seq, seq_faulted, hfull]
    · by_cases hout : s.config.memSize ≤ idx.toNat
      · simp [seqExec, checksOf, withRoom_seq, withWord_seq, seq_faulted, hfull, hout]
      · simp [seqExec, checksOf, effect, withRoom_seq, withWord_seq, continueWith_seq, seq_push_setPc, mem_seq,
          State.memRead, hfull, hout]
  | call target =>
    by_cases hfull : s.csp = s.config.callCap <;>
      simp [seqExec_call_seq, checksOf, effect, seq_faulted, seq_cpush_setPc, hfull]
  | ret =>
    by_cases hempty : s.csp = 0 <;>
      simp [seqExec_ret_seq, checksOf, effect, seq_faulted, seq_cpop_setPc, hempty]
  | halt => rfl

/-- D21: a step of a running core is the sequence form of the fetched instruction, or of the fault of the fetch. -/
theorem step_seq (hrun : s.run = true) :
    ∃ t, step s = .next t ∧
      t.seq = match fetch s with
        | .ok i => seqExec i s.seq
        | .error c => s.seq.faulted c := by
  cases hf : fetch s with
  | error c => exact ⟨_, step_of_fetch_error hrun hf, rfl⟩
  | ok i => exact ⟨_, (step_of_fetch_ok hrun hf).trans (exec_eq i s), (seqExec_seq i s).symm⟩

/-- Settles O41: the fetch reads no stack, and each instruction's answer seen as sequences is its sequence form. -/
theorem arrayStacksRefineSequences : Obligations.ArrayStacksRefineSequences := by
  intro s hrun
  obtain ⟨t, hstep, ht⟩ := step_seq hrun
  refine ⟨t, hstep, fun i hf => ?_, fun c hf => ?_⟩
  all_goals rwa [hf] at ht

/-! ### Slots at or above the pointers -/

/-- R24, R34: what is observable of a state is what it is as sequences. -/
theorem sameVisible_iff : s.SameVisible t ↔ s.seq = t.seq := by
  constructor
  · rintro ⟨hconfig, hcode, hpc, hsp, hstk, hcsp, hcstk, hmem, hrun, herr, hcause, hfaultPc⟩
    have hstack : entries s.stk s.sp = entries t.stk t.sp := hsp ▸ entries_congr hstk
    have hcalls : entries s.cstk s.csp = entries t.cstk t.csp := hcsp ▸ entries_congr hcstk
    simp only [State.seq, hconfig, hcode, hpc, hstack, hcalls, hmem, hrun, herr, hcause, hfaultPc]
  · intro h
    simp only [State.seq, SeqState.mk.injEq] at h
    obtain ⟨hconfig, hcode, hpc, hstack, hcalls, hmem, hrun, herr, hcause, hfaultPc⟩ := h
    have hsp : s.sp = t.sp := by simpa [length_entries] using congrArg List.length hstack
    have hcsp : s.csp = t.csp := by simpa [length_entries] using congrArg List.length hcalls
    exact ⟨hconfig, hcode, hpc, hsp, fun _ => read_eq_of_entries_eq (hsp ▸ hstack), hcsp,
      fun _ => read_eq_of_entries_eq (hcsp ▸ hcalls), hmem, hrun, herr, hcause, hfaultPc⟩

theorem fetch_eq_of_sameVisible (h : s.SameVisible t) : fetch s = fetch t := by
  simp [fetch, fetchWindow, State.codeBytes, State.codeByte, h.config, h.code, h.pc]

/-- R77: with `RUN` = 0 the step is the named stop. -/
theorem step_of_stopped (hrun : s.run = false) : step s = stopped s := by simp [step, hrun]

/-- Two cores that look the same take steps that look the same: the same stop, or the one step on sequences. -/
theorem sameOutcome_step (h : s.SameVisible t) : SameOutcome (step s) (step t) := by
  cases hrun : s.run with
  | false =>
    rw [step_of_stopped hrun, step_of_stopped (h.run ▸ hrun), stopped, stopped, h.err]
    rfl
  | true =>
    obtain ⟨s', hs, hs'⟩ := step_seq hrun
    obtain ⟨t', ht, ht'⟩ := step_seq (h.run ▸ hrun)
    rw [fetch_eq_of_sameVisible h, sameVisible_iff.1 h, ← ht'] at hs'
    rw [hs, ht]
    exact sameVisible_iff.2 hs'

/-- R205: the result is read below `SP`, if at all. -/
theorem result_eq_of_sameVisible (h : s.SameVisible t) : s.result = t.result := by
  rcases Nat.eq_zero_or_pos s.sp with hempty | hsome
  · rw [result_of_empty hempty, result_of_empty (h.sp ▸ hempty)]
  · rw [result_of_nonempty hsome, result_of_nonempty (h.sp ▸ hsome), h.stk _ (by omega), h.sp]

theorem outputs_eq_of_sameVisible (h : s.SameVisible t) : s.outputs = t.outputs := by
  simp [State.outputs, State.statusWord, State.resultValid, result_eq_of_sameVisible h, h.cause, h.err, h.run,
    h.faultPc, h.sp]

/-- Settles O40: states that look the same are the same as sequences, and the step and the outputs are determined by
those. -/
theorem staleSlotsAreUnobservable : Obligations.StaleSlotsAreUnobservable :=
  fun _ _ h => ⟨sameOutcome_step h, outputs_eq_of_sameVisible h⟩

end Sys2Proof.Machine
end

section
/-! PROOFS. What an instruction leaves unchanged and does not read (10_state.md sections 6, 7 and 10, 20_memory.md
section 1). -/

namespace Sys2Proof.Machine

variable {s t : State} {i : Instr}

/-! ### The two ways to a next state -/

/-- R178: an instruction takes a fault, or completes. -/
theorem exec_next_cases (h : exec i s = .next t) :
    (∃ c, firstFault i s = some c ∧ t = s.faulted c) ∨ (firstFault i s = none ∧ t = effect i s) := by
  cases hf : firstFault i s with
  | some c => exact .inl ⟨c, rfl, exec_next_of_fault h hf⟩
  | none => exact .inr ⟨rfl, exec_next_of_no_fault h hf⟩

/-- R81: a cycle takes a fault, or completes the fetched instruction. -/
theorem step_next_cases (h : step s = .next t) :
    (∃ c, t = s.faulted c) ∨ ∃ i, fetch s = .ok i ∧ firstFault i s = none ∧ t = effect i s := by
  obtain ⟨_, ⟨c, _, rfl⟩ | ⟨i, hfetch, hexec⟩⟩ := step_next h
  · exact .inl ⟨c, rfl⟩
  · obtain ⟨c, _, rfl⟩ | ⟨hf, rfl⟩ := exec_next_cases hexec
    · exact .inl ⟨c, rfl⟩
    · exact .inr ⟨i, hfetch, hf, rfl⟩

/-! ### Code and parameters -/

theorem effect_code (i : Instr) (s : State) : (effect i s).code = s.code := by cases i <;> rfl

/-- Settles O37: neither a fault nor a completed instruction writes the code buffer or the parameters. -/
theorem codeIsNeverWritten : Obligations.CodeIsNeverWritten := by
  intro s t h
  have ⟨hcode, hconfig⟩ : t.code = s.code ∧ t.config = s.config := by
    obtain ⟨c, rfl⟩ | ⟨i, _, _, rfl⟩ := step_next_cases h
    · exact ⟨rfl, rfl⟩
    · exact ⟨effect_code i s, effect_config i s⟩
  exact ⟨fun a => by rw [State.codeByte, hcode, State.codeByte], hcode, hconfig⟩

/-! ### The memory bank -/

theorem effect_mem_of_not_store (h : ∀ idx, i ≠ .store idx) (s : State) : (effect i s).mem = s.mem := by
  cases i with
  | store idx => exact absurd rfl (h idx)
  | _ => rfl

/-- Settles O38: a fault keeps the memory bank, as every instruction but STORE does, and STORE writes the word at its
index, which is what the translator gives. -/
theorem onlyStoreWritesMemory : Obligations.OnlyStoreWritesMemory := by
  intro i s t h
  obtain ⟨c, _, rfl⟩ | ⟨hf, rfl⟩ := exec_next_cases h
  · exact ⟨fun _ _ => rfl, fun _ _ _ _ _ _ => rfl, fun _ _ _ _ _ => rfl⟩
  · refine ⟨fun hi a => ?_, fun idx a hi ha k hk => ?_, fun idx c hi hc => ?_⟩
    · rw [State.memRead, effect_mem_of_not_store hi, State.memRead]
    · subst hi
      obtain ⟨_, rfl⟩ := translate_ok.1 ha
      exact memRead_effect_store_other s hk
    · subst hi
      obtain ⟨hout, _⟩ := translate_error.1 hc
      rw [firstFault_store, if_pos hout] at hf
      split at hf <;> cases hf

/-! ### The call stack -/

/-- R34: what an instruction other than CALL and RET checks does not depend on the call stack. -/
theorem firstFault_with_calls (hcall : ∀ target, i ≠ .call target) (hret : i ≠ .ret) (s : State) (calls : Memory 32)
    (depth : Nat) : firstFault i { s with cstk := calls, csp := depth } = firstFault i s := by
  cases i with
  | call target => exact absurd rfl (hcall target)
  | ret => exact absurd rfl hret
  | _ => rfl

/-- R34: an instruction other than CALL and RET carries the call stack along as it is. -/
theorem effect_with_calls (hcall : ∀ target, i ≠ .call target) (hret : i ≠ .ret) (s : State) (calls : Memory 32)
    (depth : Nat) :
    effect i { s with cstk := calls, csp := depth } = { effect i s with cstk := calls, csp := depth } := by
  cases i with
  | call target => exact absurd rfl (hcall target)
  | ret => exact absurd rfl hret
  | _ => rfl

theorem effect_calls (hcall : ∀ target, i ≠ .call target) (hret : i ≠ .ret) (s : State) :
    (effect i s).cstk = s.cstk ∧ (effect i s).csp = s.csp := by
  have h : effect i s = { effect i s with cstk := s.cstk, csp := s.csp } :=
    effect_with_calls hcall hret s s.cstk s.csp
  exact ⟨by rw [h], by rw [h]⟩

/-- Settles O23: with another call stack an instruction makes the same checks, and its effect or its fault carries that
stack along. -/
theorem onlyCallAndRetUseTheCallStack : Obligations.OnlyCallAndRetUseTheCallStack := by
  intro i s t hcall hret h
  obtain ⟨c, hf, rfl⟩ | ⟨hf, rfl⟩ := exec_next_cases h
  · refine ⟨rfl, fun _ => rfl, fun calls depth => ?_⟩
    exact exec_of_fault ((firstFault_with_calls hcall hret s calls depth).trans hf)
  · obtain ⟨hcstk, hcsp⟩ := effect_calls hcall hret s
    refine ⟨hcsp, fun k => by rw [hcstk], fun calls depth => ?_⟩
    rw [exec_of_no_fault ((firstFault_with_calls hcall hret s calls depth).trans hf),
      effect_with_calls hcall hret]

/-! ### The status registers -/

theorem effect_run (i : Instr) (s : State) : (effect i s).run = if i = .halt then false else s.run := by
  cases i <;> rfl

/-- R33: no check reads a status register. -/
theorem firstFault_with_status (i : Instr) (s : State) (run err : Bool) (cause : BitVec 4) (faultPc : Word) :
    firstFault i { s with run := run, err := err, cause := cause, faultPc := faultPc } = firstFault i s := by
  cases i <;> rfl

/-- R33: a completed instruction carries the status registers along, but for HALT's `RUN`. -/
theorem effect_with_status (i : Instr) (s : State) (run err : Bool) (cause : BitVec 4) (faultPc : Word) :
    effect i { s with run := run, err := err, cause := cause, faultPc := faultPc } =
      { effect i s with
        run := if i = .halt then false else run, err := err, cause := cause, faultPc := faultPc } := by
  cases i <;> rfl

/-- Settles O29: a fault's entry is the four registers' write, and checks and effects are the same under other values of
them. -/
theorem programsCannotReachTheStatusRegisters : Obligations.ProgramsCannotReachTheStatusRegisters := by
  refine fun i s => ⟨fun c => exec_of_fault, fun hf t h => ?_⟩
  obtain rfl := exec_next_of_no_fault h hf
  refine ⟨effect_err i s, effect_cause i s, effect_faultPc i s, fun hi => effect_run_of_ne_halt hi s,
    fun run err cause faultPc => ?_⟩
  rw [exec_of_no_fault ((firstFault_with_status i s run err cause faultPc).trans hf), effect_with_status]

/-! ### The table of R39 -/

/-- R39, the operand-stack column: an instruction that pushes writes the slot at `SP` less its pops, and no other
instruction writes one. -/
theorem effect_stk_of_other_slot {k : Nat} (h : pushCount i = 0 ∨ k ≠ s.sp - popCount i) :
    (effect i s).stk.read k = s.stk.read k := by
  cases i with
  | push | dup | load | add | sub | mul | div | cmp =>
    exact Memory.read_write_other s.stk _ (h.resolve_left Nat.one_ne_zero)
  | pop | jmp | jz | jnz | store | call | ret | halt => rfl

/-- Settles O39: `effect` field by field, where the checks bound what is popped. -/
theorem instructionsTouchOnlyTheTabledState : Obligations.InstructionsTouchOnlyTheTabledState := by
  intro i s t hf h
  obtain rfl := exec_next_of_no_fault h hf
  have hpop := popCount_le_sp_of_no_fault hf
  refine ⟨?depth, fun k => effect_stk_of_other_slot, fun k hk => effect_stk_of_other_slot (.inr (Nat.ne_of_lt hk)),
    fun hi => effect_mem_of_not_store hi s, fun hcall hret => effect_calls hcall hret s, ?call, ?ret,
    effect_run i s, effect_code i s, effect_config i s, effect_err i s, effect_cause i s, effect_faultPc i s⟩
  case depth =>
    rw [effect_sp]
    omega
  case call =>
    rintro target rfl
    rfl
  case ret =>
    rintro rfl
    have hsome : s.csp ≠ 0 := fun hempty => by simp [firstFault_ret, hempty] at hf
    exact Nat.succ_pred hsome

end Sys2Proof.Machine
end

section
/-! PROOFS. Runs of several steps: what a LOAD returns (20_memory.md rule R60), the program that runs forever (R207) and
the host's ceiling (R208). -/

namespace Sys2Proof.Machine

variable {s t u : State} {i : Instr} {idx : Byte} {n : Nat}

/-! ### A word of the memory bank over several steps -/

theorem effect_load_top (idx : Byte) (s : State) : (effect (.load idx) s).top = s.memRead idx.toNat :=
  Memory.read_write_same s.stk s.sp _

theorem memRead_effect_of_ne_store (h : i ≠ .store idx) (s : State) :
    (effect i s).memRead idx.toNat = s.memRead idx.toNat := by
  cases i with
  | store idx' =>
    exact memRead_effect_store_other s fun heq => h (congrArg Instr.store (BitVec.eq_of_toNat_eq heq.symm))
  | _ => rfl

/-- A step that runs no STORE to an index keeps the word there. -/
theorem memRead_of_step (havoid : ∀ i, fetch s = .ok i → ¬ i = .store idx) (h : step s = .next t) :
    t.memRead idx.toNat = s.memRead idx.toNat := by
  obtain ⟨c, rfl⟩ | ⟨i, hfetch, _, rfl⟩ := step_next_cases h
  · rfl
  · exact memRead_effect_of_ne_store (havoid i hfetch) s

theorem memRead_of_stepsAvoiding (h : StepsAvoiding (fun i => i = .store idx) n s t) :
    t.memRead idx.toNat = s.memRead idx.toNat := by
  induction n generalizing s with
  | zero => rw [show t = s from h]
  | succ n ih =>
    obtain ⟨havoid, u, hstep, hothers⟩ := h
    rw [ih hothers, memRead_of_step havoid hstep]

/-- Settles O20: LOAD pushes the word at its index, which the steps between keep as the STORE or the reset left it. -/
theorem loadReturnsTheLastStore : Obligations.LoadReturnsTheLastStore := by
  intro idx n t u hload hf
  obtain rfl := exec_next_of_no_fault hload hf
  rw [effect_load_top]
  refine ⟨fun s s1 hfetch hstore hstep hsteps => ?_, fun c program s hreset hsteps => ?_⟩
  · obtain ⟨hrun, _⟩ := step_next hstep
    rw [step_of_fetch_ok hrun hfetch] at hstep
    rw [memRead_of_stepsAvoiding hsteps, exec_next_of_no_fault hstep hstore, memRead_effect_store_same]
  · rw [memRead_of_stepsAvoiding hsteps, memRead_of_hostReset hreset]

/-! ### A run under the host's ceiling -/

theorem runUnder_of_stopped (hrun : s.run = false) (n : Nat) : runUnder n s = s := by
  cases n <;> simp [runUnder, hrun]

theorem runUnder_succ_of_step (h : step s = .next t) (n : Nat) : runUnder (n + 1) s = runUnder n t := by
  obtain ⟨hrun, _⟩ := step_next h
  simp [runUnder, hrun, h]

theorem runUnder_add (n k : Nat) (s : State) : runUnder (n + k) s = runUnder k (runUnder n s) := by
  induction n generalizing s with
  | zero => rw [Nat.zero_add, runUnder]
  | succ n ih =>
    cases hrun : s.run with
    | false => simp only [runUnder_of_stopped hrun]
    | true =>
      obtain ⟨t, hstep⟩ := (onlyARunningCoreSteps s).1 hrun
      rw [Nat.succ_add, runUnder_succ_of_step hstep, runUnder_succ_of_step hstep, ih]

theorem runUnder_of_stepsAvoiding {avoid : Instr → Prop} (h : StepsAvoiding avoid n s t) : runUnder n s = t := by
  induction n generalizing s with
  | zero => exact h.symm
  | succ n ih =>
    obtain ⟨_, u, hstep, hothers⟩ := h
    rw [runUnder_succ_of_step hstep, ih hothers]

/-- Settles O57: a running core always has a next state, so a run is cut anywhere, and a stopped core stays as it is. -/
theorem ceilingIsNoHaltAndNoFault : Obligations.CeilingIsNoHaltAndNoFault :=
  ⟨runUnder_add, fun n k s hstop => by rw [runUnder_add, runUnder_of_stopped hstop],
    fun _ _ _ => runUnder_of_stepsAvoiding⟩

/-! ### The self-jump -/

theorem stepsAvoiding_of_step_self (h : step s = .next s) (n : Nat) : StepsAvoiding (fun _ => False) n s s := by
  induction n with
  | zero => rfl
  | succ n ih => exact ⟨fun _ _ => id, s, h, ih⟩

/-- Settles O36: JMP to the address it stands at is a step from the state to itself, repeated. -/
theorem selfJumpRunsForever : Obligations.SelfJumpRunsForever := by
  intro s n hrun hfetch
  have hsteps := stepsAvoiding_of_step_self (step_of_fetch_ok hrun hfetch) n
  have hsame := runUnder_of_stepsAvoiding hsteps
  exact ⟨hsteps, hsame, by rw [hsame, State.runStatus, if_pos hrun]⟩

end Sys2Proof.Machine
end

section
/-! PROOFS. The invariant of every reachable state (10_state.md sections 3 and 6 to 8), from reset on
(70_reset_and_hazards.md section 1). -/

namespace Sys2Proof.Machine

variable {s t : State} {i : Instr}

/-! ### What a completed instruction keeps of the operand stack and the memory bank -/

/-- R103: a push writes a slot below `STACK_CAP`. -/
theorem wf_stk_effect (hf : firstFault i s = none) (hsp : s.sp ≤ s.config.stackCap)
    (h : s.stk.wf s.config.stackCap = true) : (effect i s).stk.wf s.config.stackCap = true := by
  have hpop := popCount_le_sp_of_no_fault hf
  have hroom := sp_ne_stackCap_of_no_fault hf
  cases i with
  | push | dup | load =>
    have := hroom Nat.zero_lt_one
    exact Memory.wf_write h (show s.sp < s.config.stackCap by omega) _
  | add | sub | mul | div | cmp =>
    have : 2 ≤ s.sp := hpop
    exact Memory.wf_write h (show s.sp - 1 - 1 < s.config.stackCap by omega) _
  | pop | jmp | jz | jnz | store | call | ret | halt => exact h

/-- R140: STORE writes a word below `MEM_SIZE`. -/
theorem wf_mem_effect (hf : firstFault i s = none) (h : s.mem.wf s.config.memSize = true) :
    (effect i s).mem.wf s.config.memSize = true := by
  cases i with
  | store idx =>
    have hin : ¬ s.config.memSize ≤ idx.toNat := fun hout => by
      rw [firstFault_store, if_pos hout] at hf
      split at hf <;> cases hf
    exact Memory.wf_write h (Nat.not_le.1 hin) _
  | _ => exact h

/-! ### What it keeps of the call stack -/

theorem csp_ne_callCap_of_no_fault {target : Word} (hf : firstFault (.call target) s = none) :
    s.csp ≠ s.config.callCap := fun hfull => by simp [firstFault_call_of_full hfull] at hf

theorem wf_cstk_effect (hf : firstFault i s = none) (hcsp : s.csp ≤ s.config.callCap)
    (h : s.cstk.wf s.config.callCap = true) : (effect i s).cstk.wf s.config.callCap = true := by
  cases i with
  | call target => exact Memory.wf_write h (Nat.lt_of_le_of_ne hcsp (csp_ne_callCap_of_no_fault hf)) _
  | _ => exact h

theorem effect_csp_le_callCap (hf : firstFault i s = none) (hcsp : s.csp ≤ s.config.callCap) :
    (effect i s).csp ≤ s.config.callCap := by
  cases i with
  | call target => exact Nat.lt_of_le_of_ne hcsp (csp_ne_callCap_of_no_fault hf)
  | ret => exact (Nat.sub_le _ _).trans hcsp
  | _ => exact hcsp

/-- R35: the address after an instruction is a legal return address. -/
theorem nextPc_bounds (hwf : s.config.wf = true) (hfetch : fetch s = .ok i) :
    1 ≤ (s.nextPc i.op).toNat ∧ (s.nextPc i.op).toNat ≤ s.config.codeCap := by
  have hfits := fetch_fits hfetch
  have hpos : 1 ≤ i.length := i.op.length_pos
  rw [toNat_nextPc_of_fetch hwf hfetch]
  omega

theorem nextPc_call (s : State) : s.nextPc .call = s.pc + 5 := rfl

/-- R35: the one return address that is new is that of a CALL. -/
theorem returns_effect (hs : s.Inv) (hfetch : fetch s = .ok i) (k : Nat) (hk : k < (effect i s).csp) :
    1 ≤ ((effect i s).cstk.read k).toNat ∧ ((effect i s).cstk.read k).toNat ≤ s.config.codeCap := by
  have hothers (hcall : ∀ target, i ≠ .call target) (hret : i ≠ .ret) := effect_calls hcall hret s
  cases i with
  | call target =>
    rcases Nat.lt_or_eq_of_le (Nat.le_of_lt_succ hk) with hold | rfl
    · rw [effect_call_cstk_other target s (Nat.ne_of_lt hold)]
      exact hs.returns k hold
    · have hnext := nextPc_bounds hs.config hfetch
      rwa [Instr.op, nextPc_call, ← effect_call_cstk_same target] at hnext
  | ret => exact hs.returns k (Nat.lt_of_lt_of_le hk (Nat.sub_le _ _))
  | _ =>
    obtain ⟨hcstk, hcsp⟩ := hothers nofun nofun
    rw [hcstk]
    exact hs.returns k (hcsp ▸ hk)

/-! ### The step -/

/-- R176: a fault writes the four registers as the invariant asks. -/
theorem inv_faulted (c : Cause) (hs : s.Inv) : (s.faulted c).Inv :=
  { hs with
    flags := nofun
    noFault := nofun
    fault := fun _ => ⟨⟨c, rfl⟩, rfl⟩ }

theorem inv_effect (hs : s.Inv) (hrun : s.run = true) (hfetch : fetch s = .ok i) (hf : firstFault i s = none) :
    (effect i s).Inv where
  config := by rw [effect_config]; exact hs.config
  code := by rw [effect_config, effect_code]; exact hs.code
  stk := by rw [effect_config]; exact wf_stk_effect hf hs.sp hs.stk
  sp := by rw [effect_config]; exact effect_sp_le_stackCap hs.sp hf
  cstk := by rw [effect_config]; exact wf_cstk_effect hf hs.csp hs.cstk
  csp := by rw [effect_config]; exact effect_csp_le_callCap hf hs.csp
  returns := by rw [effect_config]; exact returns_effect hs hfetch
  mem := by rw [effect_config]; exact wf_mem_effect hf hs.mem
  flags := fun _ => by rw [effect_err]; exact hs.flags hrun
  noFault := by rw [effect_err, effect_cause, effect_faultPc]; exact hs.noFault
  fault := by rw [effect_err, hs.flags hrun]; exact nofun

/-- Settles O54: a step takes a fault or completes the fetched instruction, and either keeps the invariant. -/
theorem everyStepKeepsTheInvariant : Obligations.EveryStepKeepsTheInvariant := by
  intro s t hs h
  obtain ⟨hrun, _⟩ := step_next h
  obtain ⟨c, rfl⟩ | ⟨i, hfetch, hf, rfl⟩ := step_next_cases h
  · exact inv_faulted c hs
  · exact inv_effect hs hrun hfetch hf

/-! ### Reset -/

/-- Settles O53: a reset leaves the program in the code buffer, in canonical form, and every other array empty. -/
theorem everyResetMeetsTheInvariant : Obligations.EveryResetMeetsTheInvariant := by
  intro c program s hwf h
  obtain ⟨_, rfl⟩ := hostReset_next.1 h
  exact {
    config := hwf
    code := wf_placeBytes program rfl 0
    stk := rfl
    sp := Nat.zero_le _
    cstk := rfl
    csp := Nat.zero_le _
    returns := fun _ hk => absurd hk (Nat.not_lt_zero _)
    mem := rfl
    flags := fun _ => rfl
    noFault := fun _ => ⟨rfl, rfl⟩
    fault := nofun }

/-- Settles O52: the reset state is that of this hardware's reset with the empty program. -/
theorem resetMeetsTheInvariant : Obligations.ResetMeetsTheInvariant :=
  everyResetMeetsTheInvariant Config.hardware [] State.reset Config.hardware_wf rfl

theorem codeCap_pos_of_wf {c : Config} (h : c.wf = true) : 0 < c.codeCap := by
  simp only [Config.wf, Bool.and_eq_true, decide_eq_true_eq] at h
  obtain ⟨⟨⟨_, hpos⟩, _⟩, _⟩ := h
  exact hpos

theorem opcodes_wf_of_wf {c : Config} (h : c.wf = true) : c.opcodes.wf = true := by
  rw [Config.wf, Bool.and_eq_true] at h
  exact h.2

/-- Settles O51: a program that does not fit is not accepted, and the empty program's first byte is 0, which no
well-formed map gives to an opcode. -/
theorem programLengthLimits : Obligations.ProgramLengthLimits := by
  refine ⟨fun c program hlong => ?_, fun c hwf => ?_⟩
  · simp [hostReset, Config.accepts, hlong]
  · have hfetch := fetch_of_invalid_opcode (s := { State.reset with config := c, code := [] }) (codeCap_pos_of_wf hwf)
      (OpcodeMap.opcodeOf_zero (opcodes_wf_of_wf hwf))
    exact ⟨_, _, hostReset_of_fits (Nat.zero_le _), step_of_fetch_error rfl hfetch, rfl, rfl, rfl⟩

end Sys2Proof.Machine
end

section
/-! PROOFS. The arithmetic family in 32-bit modular arithmetic (41_arithmetic.md rule R116), and the integers of 00_scope.md
rule R11. -/

namespace Sys2Proof.Machine

variable {s t : State}

/-! ### `wrap32` and `tdiv` -/

theorem tmod_eq_zero_or_sign (a b : Int) : Int.tmod a b = 0 ∨ (Int.tmod a b).sign = a.sign := by
  rw [Int.sign_tmod, ← Int.dvd_iff_tmod_eq_zero]
  by_cases h : b ∣ a
  · exact .inl h
  · exact .inr (if_neg h)

/-- Settles O12: `wrap32` is the balanced residue, and the remainder that `tdiv` leaves is the library's `tmod`. -/
theorem wrapAndTruncationAreAsDefined : Obligations.WrapAndTruncationAreAsDefined := by
  refine ⟨fun n v => ?_, fun a b hb => ?_⟩
  · rw [toInt_wrap32, Int.bmod_def]
    omega
  · rw [tdiv_eq, ← Int.tmod_def, Int.natAbs_tmod]
    exact ⟨Nat.mod_lt _ (Int.natAbs_pos.2 hb), tmod_eq_zero_or_sign a b⟩

/-! ### The narrowed results as operations on words -/

theorem wrap32_add_toInt (a b : Word) : wrap32 (a.toInt + b.toInt) = a + b := by
  rw [← BitVec.toInt_inj, toInt_wrap32, BitVec.toInt_add]

theorem wrap32_sub_toInt (a b : Word) : wrap32 (a.toInt - b.toInt) = a - b := by
  rw [← BitVec.toInt_inj, toInt_wrap32, BitVec.toInt_sub]

theorem wrap32_mul_toInt (a b : Word) : wrap32 (a.toInt * b.toInt) = a * b := by
  rw [← BitVec.toInt_inj, toInt_wrap32, BitVec.toInt_mul]

theorem toNat_sub_eq_emod (a b : Word) : ((a - b).toNat : Int) = ((a.toNat : Int) - b.toNat) % 2 ^ 32 := by
  rw [BitVec.toNat_sub]
  omega

/-- D8: no other quotient of two words leaves the signed range. -/
theorem toInt_wrap32_tdiv (a b : Word) (h : ¬ (a.toInt = -2 ^ 31 ∧ b.toInt = -1)) :
    (wrap32 (Int.tdiv a.toInt b.toInt)).toInt = Int.tdiv a.toInt b.toInt := by
  rw [toInt_wrap32, ← BitVec.toInt_sdiv, BitVec.toInt_sdiv_of_ne_or_ne]
  refine not_and_or.1 fun ⟨ha, hb⟩ => h ?_
  subst ha hb
  decide

/-! ### The top that an arithmetic instruction leaves -/

theorem top_of_writesStackSlot {slot : Nat} {v pc : Word} (h : WritesStackSlot s t slot v (slot + 1) pc) :
    t.top = v := by
  obtain ⟨ht, hslot, _⟩ := h
  have hsp : t.sp = slot + 1 := congrArg State.sp ht
  rw [State.top, hsp, Nat.add_sub_cancel, hslot]

/-- R115, R116: an arithmetic instruction whose checks pass leaves its narrowed result on top. -/
theorem exec_top {i : Instr} {f : Int → Int → Int} (h : integerOperation i = some f) (htwo : 2 ≤ s.sp)
    (hdivisor : i = .div → s.stk.read (s.sp - 1) ≠ 0) :
    ∃ t, exec i s = .next t ∧
      t.top = wrap32 (f (s.stk.read (s.sp - 2)).toInt (s.stk.read (s.sp - 1)).toInt) := by
  obtain ⟨t, hexec, hwrites⟩ := exec_of_two_le h htwo hdivisor
  rw [show s.sp - 1 = s.sp - 2 + 1 by omega] at hwrites ⊢
  exact ⟨t, hexec, top_of_writesStackSlot hwrites⟩

/-- Settles O11: the top that `exec_top` gives, narrowed as the word operations are. -/
theorem arithmeticIsModular : Obligations.ArithmeticIsModular := by
  intro s htwo a b
  refine ⟨?add, ?sub, ?mul, fun hzero => exec_of_fault (firstFault_div_of_zero htwo hzero), fun hdivisor => ?div, ?cmp⟩
  case add =>
    obtain ⟨t, hexec, htop⟩ := exec_top (i := .add) rfl htwo nofun
    rw [wrap32_add_toInt] at htop
    exact ⟨t, hexec, htop, by rw [htop, BitVec.toNat_add]⟩
  case sub =>
    obtain ⟨t, hexec, htop⟩ := exec_top (i := .sub) rfl htwo nofun
    rw [wrap32_sub_toInt] at htop
    exact ⟨t, hexec, htop, by rw [htop, toNat_sub_eq_emod]⟩
  case mul =>
    obtain ⟨t, hexec, htop⟩ := exec_top (i := .mul) rfl htwo nofun
    rw [wrap32_mul_toInt] at htop
    exact ⟨t, hexec, htop, by rw [htop, BitVec.toNat_mul]⟩
  case div =>
    obtain ⟨t, hexec, htop⟩ := exec_top (i := .div) rfl htwo fun _ => hdivisor
    refine ⟨t, hexec, fun hfits => ?_, fun ha hb => ?_⟩
    · rw [htop, toInt_wrap32_tdiv _ _ hfits]
    · rw [htop, ha, hb]
      decide
  case cmp =>
    obtain ⟨t, hexec, htop⟩ := exec_top (i := .cmp) rfl htwo nofun
    rw [wrap32_ite_one_zero] at htop
    refine ⟨t, hexec, ?_⟩
    rw [htop]
    by_cases hless : a.toInt < b.toInt <;> simp [a, b, hless]

end Sys2Proof.Machine
end

section
/-! PROOFS. What the host sees of a core: the stop's name, the status word (10_state.md rule R33) and the outputs
(70_reset_and_hazards.md section 3). -/

namespace Sys2Proof.Machine

/-- Settles O34: the stop is named by `ERR`. -/
theorem stoppedCoresAnswerByName : Obligations.StoppedCoresAnswerByName := by
  intro s hrun
  rw [step_of_stopped hrun]
  exact ⟨fun herr => by rw [stopped, herr]; rfl, fun herr => by rw [stopped, herr]; rfl⟩

/-! ### The status word -/

/-- R33: the status word is `CAUSE` with two more bits below it. -/
theorem statusWord_eq_concat (s : State) :
    s.statusWord = (((0 : BitVec 2) ++ s.cause).concat s.err).concat s.run := rfl

theorem toNat_statusWord (s : State) :
    s.statusWord.toNat = 4 * s.cause.toNat + 2 * s.err.toNat + s.run.toNat := by
  have hhigh : ((0 : BitVec 2) ++ s.cause).toNat = s.cause.toNat := by
    rw [BitVec.toNat_append]
    simp
  rw [statusWord_eq_concat, BitVec.toNat_concat, BitVec.toNat_concat, hhigh]
  omega

/-- Settles O55: the two low bits are those put below `CAUSE`, and the others follow from the value. -/
theorem statusWordLayout : Obligations.StatusWordLayout := by
  intro s
  have hrun := s.run.toNat_le
  have herr := s.err.toNat_le
  refine ⟨?run, ?err, ?cause, ?zeros, toNat_statusWord s⟩
  case run => rw [statusWord_eq_concat, BitVec.getLsbD_concat_zero]
  case err => rw [statusWord_eq_concat, BitVec.getLsbD_concat_succ, BitVec.getLsbD_concat_zero]
  case cause =>
    rw [← BitVec.toNat_inj, BitVec.extractLsb'_toNat, toNat_statusWord, Nat.shiftRight_eq_div_pow]
    omega
  case zeros =>
    rw [← BitVec.toNat_inj, BitVec.extractLsb'_toNat, toNat_statusWord, Nat.shiftRight_eq_div_pow,
      show (0 : BitVec 2).toNat = 0 from rfl]
    omega

/-! ### The end of a run -/

theorem runStatus_of_error {s : State} (hrun : s.run = false) (herr : s.err = true) :
    s.runStatus = .onError s.cause s.faultPc := by
  simp [State.runStatus, hrun, herr]

/-- Settles O56: the run status by `RUN` and `ERR`, and the report by whether the stack is empty. -/
theorem runEndAndHaltReport : Obligations.RunEndAndHaltReport := by
  refine fun s => ⟨rfl, fun hrun => if_pos hrun, runStatus_of_error, fun hrun herr hempty => ?_,
    fun hrun herr hsome => ?_⟩
  · rw [runStatus_of_clean hrun herr, result_of_empty hempty]
    exact ⟨rfl, decide_eq_false (by omega), rfl⟩
  · rw [runStatus_of_clean hrun herr, result_of_nonempty hsome]
    exact ⟨rfl, decide_eq_true hsome, rfl⟩

end Sys2Proof.Machine
end

section
/-! PROOFS. Source texts (30_encoding.md rules R84 and R86): the text of a sequence of instructions is read back as that
sequence, and the first bad token after it ends assembly. -/

namespace Sys2Proof.Machine

variable {i : Instr} {o : Op} {literal token : Token} {tokens rest : List Token} {items : List (Instr × Token)}

/-! ### What an opcode needs, by its format -/

theorem written_of_n (h : i.op.format = .n) : written i.op = .whole i := by
  cases i with
  | pop | dup | add | sub | mul | div | cmp | ret | halt => rfl
  | push | jmp | jz | jnz | call | store | load => cases h

theorem written_of_i32 (h : o.format = .i32) : ∃ make, written o = .word make := by
  cases o with
  | push | jmp | jz | jnz | call => exact ⟨_, rfl⟩
  | store | load | pop | dup | add | sub | mul | div | cmp | ret | halt => cases h

theorem written_of_i8 (h : o.format = .i8) : ∃ make, written o = .index make := by
  cases o with
  | store | load => exact ⟨_, rfl⟩
  | push | jmp | jz | jnz | call | pop | dup | add | sub | mul | div | cmp | ret | halt => cases h

/-- R84, R85: the three ways to spell an instruction, by its format. -/
theorem spellsOperand_cases (h : SpellsOperand i literal) :
    (i.op.format = .n ∧ written i.op = .whole i) ∨
    (i.op.format = .i32 ∧ ∃ make w n, written i.op = .word make ∧ parseLiteral literal = some n ∧
      wordOperand literal = .ok w ∧ make w = i) ∨
    (i.op.format = .i8 ∧ ∃ make b n, written i.op = .index make ∧ parseLiteral literal = some n ∧
      indexOperand literal = .ok b ∧ make b = i) := by
  cases hformat : i.op.format with
  | n => exact .inl ⟨rfl, written_of_n hformat⟩
  | i32 =>
    obtain ⟨make, hw⟩ := written_of_i32 hformat
    simp only [SpellsOperand, hw] at h
    obtain ⟨n, hn, hlow, hhigh, hi⟩ := h
    exact .inr (.inl ⟨rfl, make, _, n, hw, hn, wordOperand_of_literal hn hlow hhigh, hi.symm⟩)
  | i8 =>
    obtain ⟨make, hw⟩ := written_of_i8 hformat
    simp only [SpellsOperand, hw] at h
    obtain ⟨n, hn, hi⟩ := h
    exact .inr (.inr ⟨rfl, make, _, n, hw, hn, indexOperand_of_literal hn, hi.symm⟩)

/-! ### Reading the tokens of spelled instructions -/

theorem parseTokens_whole (ho : written o = .whole i) (rest : List Token) :
    parseTokens (mnemonic o :: rest) = (parseTokens rest).map (i :: ·) := by
  simp [parseTokens, opOfMnemonic_mnemonic, ho]

/-- R84: the tokens that spell an instruction are read as that instruction. -/
theorem parseTokens_sourceTokens (h : SpellsOperand i literal) (rest : List Token) :
    parseTokens (sourceTokens i literal ++ rest) = (parseTokens rest).map (i :: ·) := by
  rcases spellsOperand_cases h with ⟨hformat, hw⟩ | ⟨hformat, make, w, n, hw, _, hoperand, hi⟩ |
    ⟨hformat, make, b, n, hw, _, hoperand, hi⟩
  · simpa [sourceTokens, hformat] using parseTokens_whole hw rest
  · simpa [sourceTokens, hformat, hi] using parseTokens_word hw hoperand rest
  · simpa [sourceTokens, hformat, hi] using parseTokens_index hw hoperand rest

/-- R84: the tokens of a sequence of instructions are read one instruction after the other. -/
theorem parseTokens_flatMap_sourceTokens (h : ∀ item ∈ items, SpellsOperand item.1 item.2) (rest : List Token) :
    parseTokens ((items.flatMap fun item => sourceTokens item.1 item.2) ++ rest) =
      (parseTokens rest).map (items.map (·.1) ++ ·) := by
  induction items with
  | nil => cases hrest : parseTokens rest <;> simp [Except.map, hrest]
  | cons item items ih =>
    rw [List.forall_mem_cons] at h
    obtain ⟨hitem, hitems⟩ := h
    rw [List.flatMap_cons, List.append_assoc, parseTokens_sourceTokens hitem, ih hitems]
    cases parseTokens rest <;> rfl

/-- R86: nothing of a text with an error is kept. -/
theorem parseTokens_of_error_after {e : AsmError} (h : ∀ item ∈ items, SpellsOperand item.1 item.2)
    (he : parseTokens rest = .error e) :
    parseTokens ((items.flatMap fun item => sourceTokens item.1 item.2) ++ rest) = .error e := by
  rw [parseTokens_flatMap_sourceTokens h, he, Except.map]

/-! ### The errors -/

theorem parseTokens_of_no_mnemonic (h : opOfMnemonic token = none) (rest : List Token) :
    parseTokens (token :: rest) = .error (.unrecognizedMnemonic token) := by
  simp [parseTokens, h]

theorem mnemonic_of_opOfMnemonic (h : opOfMnemonic token = some o) : mnemonic o = token := by
  simpa using List.find?_some h

theorem parseLiteral_mnemonic (o : Op) : parseLiteral (mnemonic o) = none := by cases o <;> decide

theorem opOfMnemonic_of_literal {n : Int} (h : parseLiteral token = some n) : opOfMnemonic token = none := by
  cases ho : opOfMnemonic token with
  | none => rfl
  | some o => simp [← mnemonic_of_opOfMnemonic ho, parseLiteral_mnemonic] at h

theorem parseTokens_of_missing_operand (h : o.format ≠ .n) :
    parseTokens [mnemonic o] = .error (.missingOperand o) := by
  cases hformat : o.format with
  | n => exact absurd hformat h
  | i32 =>
    obtain ⟨make, hw⟩ := written_of_i32 hformat
    simp [parseTokens, opOfMnemonic_mnemonic, hw]
  | i8 =>
    obtain ⟨make, hw⟩ := written_of_i8 hformat
    simp [parseTokens, opOfMnemonic_mnemonic, hw]

theorem parseTokens_of_bad_word (h : o.format = .i32) (ht : wordOperand token = .error (.malformedOperand token))
    (rest : List Token) : parseTokens (mnemonic o :: token :: rest) = .error (.malformedOperand token) := by
  obtain ⟨make, hw⟩ := written_of_i32 h
  simp [parseTokens, opOfMnemonic_mnemonic, hw, ht]

theorem parseTokens_of_no_literal (h : o.format ≠ .n) (ht : parseLiteral token = none) (rest : List Token) :
    parseTokens (mnemonic o :: token :: rest) = .error (.malformedOperand token) := by
  cases hformat : o.format with
  | n => exact absurd hformat h
  | i32 => exact parseTokens_of_bad_word hformat (by simp [wordOperand, ht]) rest
  | i8 =>
    obtain ⟨make, hw⟩ := written_of_i8 hformat
    simp [parseTokens, opOfMnemonic_mnemonic, hw, indexOperand, ht]

theorem wordOperand_of_out_of_range {n : Int} (h : parseLiteral token = some n) (hout : n < -2 ^ 31 ∨ 2 ^ 31 ≤ n) :
    wordOperand token = .error (.malformedOperand token) := by
  have hnot : ¬ (-2 ^ 31 ≤ n ∧ n < 2 ^ 31) := by omega
  simp only [wordOperand, h, if_neg hnot]

/-- Settles O59: well-spelled instructions are read through to the bad token, whose error is the answer. -/
theorem assemblyErrorsAreFatal : Obligations.AssemblyErrorsAreFatal := by
  intro items token rest hitems
  have after {bad : List Token} {e : AsmError} := parseTokens_of_error_after (rest := bad) (e := e) hitems
  exact ⟨fun ht => after (parseTokens_of_no_mnemonic ht rest), fun n => opOfMnemonic_of_literal,
    fun o ho => after (parseTokens_of_missing_operand ho), fun o ho ht => after (parseTokens_of_no_literal ho ht rest),
    fun o n ho hn hout => after (parseTokens_of_bad_word ho (wordOperand_of_out_of_range hn hout) rest)⟩

/-! ### The characters of a token -/

/-- R84: a token as white space delimits it, some characters and no separator among them. -/
def IsWritable (t : Token) : Prop := t ≠ [] ∧ ∀ c ∈ t, isSeparator c = false

theorem isWritable_mnemonic (o : Op) : IsWritable (mnemonic o) := by
  cases o <;> simp [IsWritable, mnemonic, isSeparator]

theorem not_isSeparator_of_digit {c : Char} {d : Nat} (h : digitValue c = some d) : isSeparator c = false := by
  cases hsep : isSeparator c with
  | false => rfl
  | true =>
    have hc : c = ' ' ∨ c = '\t' ∨ c = '\n' ∨ c = '\r' := by simpa [isSeparator, or_assoc] using hsep
    rcases hc with rfl | rfl | rfl | rfl <;> cases h

theorem not_isSeparator_of_digitsFrom {value n : Nat} {t : Token} (h : digitsFrom value t = some n) :
    ∀ c ∈ t, isSeparator c = false := by
  induction t generalizing value with
  | nil => simp
  | cons c t ih =>
    cases hd : digitValue c with
    | none => simp [digitsFrom, hd] at h
    | some d =>
      rw [List.forall_mem_cons]
      exact ⟨not_isSeparator_of_digit hd, ih (by simpa [digitsFrom, hd] using h)⟩

theorem isWritable_of_parseNat {n : Nat} {t : Token} (h : parseNat t = some n) : IsWritable t := by
  cases t with
  | nil => cases h
  | cons c t => exact ⟨List.cons_ne_nil c t, not_isSeparator_of_digitsFrom h⟩

theorem isWritable_of_parseLiteral {n : Int} (h : parseLiteral token = some n) : IsWritable token := by
  cases token with
  | nil => cases h
  | cons c t =>
    rw [parseLiteral] at h
    split at h
    · next hminus =>
      obtain ⟨k, hk, _⟩ := Option.map_eq_some_iff.1 h
      obtain ⟨_, hdigits⟩ := isWritable_of_parseNat hk
      exact ⟨List.cons_ne_nil c t, List.forall_mem_cons.2 ⟨hminus ▸ rfl, hdigits⟩⟩
    · obtain ⟨k, hk, _⟩ := Option.map_eq_some_iff.1 h
      exact isWritable_of_parseNat hk

theorem literal_of_spellsOperand (h : SpellsOperand i literal) (hoperand : i.op.format ≠ .n) :
    ∃ n, parseLiteral literal = some n := by
  rcases spellsOperand_cases h with ⟨hformat, _⟩ | ⟨_, _, _, n, _, hn, _⟩ | ⟨_, _, _, n, _, hn, _⟩
  · exact absurd hformat hoperand
  · exact ⟨n, hn⟩
  · exact ⟨n, hn⟩

theorem mem_sourceTokens :
    token ∈ sourceTokens i literal ↔ token = mnemonic i.op ∨ (i.op.format ≠ .n ∧ token = literal) := by
  cases hf : i.op.format <;> simp [sourceTokens, hf]

theorem isWritable_of_mem_sourceTokens (h : SpellsOperand i literal) (ht : token ∈ sourceTokens i literal) :
    IsWritable token := by
  obtain rfl | ⟨hformat, rfl⟩ := mem_sourceTokens.1 ht
  · exact isWritable_mnemonic i.op
  · obtain ⟨n, hn⟩ := literal_of_spellsOperand h hformat
    exact isWritable_of_parseLiteral hn

/-! ### Splitting a text at its separators -/

theorem tokensFrom_append_space (current t : Token) (hne : current ≠ [] ∨ t ≠ [])
    (hsep : ∀ c ∈ t, isSeparator c = false) (text : List Char) :
    tokensFrom current (t ++ ' ' :: text) = (current.reverse ++ t) :: tokensFrom [] text := by
  induction t generalizing current with
  | nil =>
    have hcurrent : current ≠ [] := by simpa using hne
    simp [tokensFrom, isSeparator, hcurrent]
  | cons c t ih =>
    rw [List.forall_mem_cons] at hsep
    obtain ⟨hc, ht⟩ := hsep
    rw [List.cons_append, tokensFrom, hc, if_neg Bool.false_ne_true, ih (c :: current) (.inl (List.cons_ne_nil _ _)) ht]
    simp

/-- R84: a text of tokens with a space after each has those tokens. -/
theorem tokenize_spaced (h : ∀ t ∈ tokens, IsWritable t) :
    tokenize (tokens.flatMap fun t => t ++ [' ']) = tokens := by
  induction tokens with
  | nil => rfl
  | cons t tokens ih =>
    rw [List.forall_mem_cons] at h
    obtain ⟨⟨hne, hsep⟩, htokens⟩ := h
    rw [tokenize, List.flatMap_cons, List.append_assoc, List.singleton_append,
      tokensFrom_append_space [] t (.inr hne) hsep, ← tokenize, ih htokens, List.reverse_nil, List.nil_append]

/-- Settles O60: the text splits into the tokens of its instructions, which are read back in order. -/
theorem spelledProgramsAssemble : Obligations.SpelledProgramsAssemble := by
  intro m items hitems
  have hwritable : ∀ t ∈ items.flatMap fun item => sourceTokens item.1 item.2, IsWritable t := by
    intro t ht
    obtain ⟨item, hitem, ht⟩ := List.mem_flatMap.1 ht
    exact isWritable_of_mem_sourceTokens (hitems item hitem) ht
  have hparsed := parseTokens_flatMap_sourceTokens hitems []
  rw [List.append_nil] at hparsed
  rw [assemble, tokenize_spaced hwritable, hparsed]
  simp [parseTokens, Except.map]

end Sys2Proof.Machine
end
